-- ==== Sys2Proof/Word.lean ====
section
/-! DEFINITION. The word types of the Megaplexer controller: bytes of the bus and of the Digit Buffer, the 7-bit client
address, the electrical level of one output line and the label of one physical pin. -/

namespace Sys2Proof

/-- One byte: a digit index, a segment pattern or a byte of a message (30_encoding.md R62). -/
abbrev Byte := BitVec 8

/-- A 7-bit client address of the two-wire bus (30_encoding.md R60). -/
abbrev BusAddr := BitVec 7

/-- The electrical level of one output line: `true` is logic high (1), `false` is logic low (0) (10_state.md R22). -/
abbrev Level := Bool

/-- The label of one physical output pin (10_state.md R24). Nothing is computed from it. -/
abbrev PinId := Nat

/-- A message: the payload of one write transaction, first byte to arrive first (00_scope.md section 6.1 and glossary). -/
abbrev Message := List Byte

end Sys2Proof
end

