-- ==== Sys2Proof/Syntax.lean ====
section
/-! DEFINITION. The operations of the controller: one constructor per row of spec/opcode_table.json. -/

namespace Sys2Proof

/-- The eleven operations (opcode_table.json; 00_scope.md R5). The operands of the scan micro-operations are those the table
takes from `pc`: a digit index `i` and a segment index `k` in `0..7` (41_scan_engine.md R93 to R96). -/
inductive Instr where
  /-- `WR idx, pat`: write one pair (40_bus_commands.md R76). -/
  | wr (idx pat : Byte)
  /-- `TRAIL b`: discard the odd trailing byte (40_bus_commands.md R77). -/
  | trail (b : Byte)
  /-- `RD`: answer a read transaction (40_bus_commands.md R80). -/
  | rd
  /-- `RX_BEGIN`: the handler takes up a message (40_bus_commands.md R75). -/
  | rxBegin
  /-- `RX_END`: the handler returns (40_bus_commands.md R78). -/
  | rxEnd
  /-- `GATE`: the refresh-rate gate (41_scan_engine.md R91). -/
  | gate
  /-- `DESELECT_ALL`: step 1 of the sweep (41_scan_engine.md R92). -/
  | deselectAll
  /-- `SELECT i`: step 2a (41_scan_engine.md R93). -/
  | select (i : Nat)
  /-- `DRIVE i, k`: step 2b, one segment (41_scan_engine.md R94). -/
  | drive (i : Nat) (k : Fin 8)
  /-- `DWELL i`: step 2c (41_scan_engine.md R95). -/
  | dwell (i : Nat)
  /-- `RELEASE i`: step 2d (41_scan_engine.md R96). -/
  | release (i : Nat)
deriving DecidableEq, Repr

end Sys2Proof
end

