-- ==== Sys2Proof/WellFormed.lean ====
section
/-! DEFINITION. Which operations are well formed on a controller of `n` digits. -/

namespace Sys2Proof

/-- An operation is well formed on a board of `n` digits when its digit operand names one of them. The bus operations
carry any byte (30_encoding.md R62, R66: every bit pattern is well formed); the scan micro-operations take `i` from
`0..n-1` (10_state.md R27); their segment index is below 8 by its type. -/
def Instr.wellFormed (n : Nat) : Instr → Bool
  | .wr _ _ => true
  | .trail _ => true
  | .rd => true
  | .rxBegin => true
  | .rxEnd => true
  | .gate => true
  | .deselectAll => true
  | .select i => decide (i < n)
  | .drive i _ => decide (i < n)
  | .dwell i => decide (i < n)
  | .release i => decide (i < n)

end Sys2Proof
end

