-- ==== Sys2Proof/Decode.lean ====
section
/-! DEFINITION. The bus encoding (30_encoding.md): decoding a transaction into operations, total on every byte sequence, and
the encoder back. Selection is by position in the message, never by the value of a byte (R70). -/

namespace Sys2Proof

/-- What a host does to this client in one transaction, as the core sees it (30_encoding.md R60): the finished payload of a
write transaction, or a read transaction, which carries no bits. -/
inductive Transaction where
  | write (m : Message)
  | read
deriving DecidableEq, Repr

/-- Why no operation is decoded: the message has no unread byte left. Nothing else is ever refused (30_encoding.md R70:
decoding is total, no value of a byte is illegal). -/
inductive DecodeEnd where
  | noUnreadByte
deriving DecidableEq, Repr

/-- The next operation of a message and the bytes left after it (30_encoding.md R62, R66, R70). -/
def decodeFirst : Message → Except DecodeEnd (Instr × Message)
  | [] => .error .noUnreadByte
  | [b] => .ok (.trail b, [])
  | idx :: pat :: rest => .ok (.wr idx pat, rest)

/-- `decode(m)` of 30_encoding.md R70: all the operations of one message, in order. -/
def decode : Message → List Instr
  | [] => []
  | [b] => [.trail b]
  | idx :: pat :: rest => .wr idx pat :: decode rest

/-- The operations of one transaction: a message's operations, or the one `RD` of a read transaction (30_encoding.md R70). -/
def decodeTransaction : Transaction → List Instr
  | .write m => decode m
  | .read => [.rd]

/-- The transaction that carries one operation alone, for the three that have an encoding (30_encoding.md R62, R66, R68);
the other eight have none (R73). -/
def encode : Instr → Option Transaction
  | .wr idx pat => some (.write [idx, pat])
  | .trail b => some (.write [b])
  | .rd => some .read
  | .rxBegin => none
  | .rxEnd => none
  | .gate => none
  | .deselectAll => none
  | .select _ => none
  | .drive _ _ => none
  | .dwell _ => none
  | .release _ => none

/-- Encoding a list of operations as one message is concatenation; `TRAIL` may only stand last, and nothing but `WR` and
`TRAIL` stands in a message (30_encoding.md R71). -/
def encodeMessage : List Instr → Option Message
  | [] => some []
  | [.trail b] => some [b]
  | .wr idx pat :: ops => (encodeMessage ops).map (fun m => idx :: pat :: m)
  | _ :: _ => none

/-- How many bits the host sends the core in a transaction (30_encoding.md R60, R68). -/
def Transaction.bitLength : Transaction → Nat
  | .write m => 8 * m.length
  | .read => 0

/-- The `count` bytes of a number, the byte of the highest weight first. opcode_table.json numbers a `PAIR` so that its byte
0, the first to arrive, is bits 15..8 (30_encoding.md R62; log entry 27). -/
def wordBytes : Nat → Nat → Message
  | 0, _ => []
  | count + 1, w => BitVec.ofNat 8 (w / 2 ^ (8 * count)) :: wordBytes count w

/-- The operation decoded from an instruction of `nbits` bits whose bits, numbered as opcode_table.json numbers them, are `w`.
No bits at all is the `READ` format, the one encoding that carries none (R68; log entry 28). -/
def decodeTableWord (nbits w : Nat) : Option Instr :=
  if nbits = 0 then (decodeTransaction .read).head?
  else
    match decodeFirst (wordBytes (nbits / 8) w) with
    | .ok (i, _) => some i
    | .error _ => none

end Sys2Proof
end

