-- ==== Sys2Proof/Config.lean ====
section
/-! DEFINITION. What is fixed when the controller is built (00_scope.md R6), the events that may come next
(60_exceptions.md R121), and the free values: opaque constants with no body, of which nothing can be proved. -/

namespace Sys2Proof

/-- The configuration record: every parameter of 00_scope.md R6. It is part of the machine's data and no step changes it
(DESIGN CHOICE, log entry 1: `step` takes no second argument, so the record rides in `State`). -/
structure Config where
  /-- `DIGIT_COUNT`, legal in `1..256` (D3). -/
  digitCount : Nat
  /-- `COMMON_ANODE_MODE`, the polarity bit (10_state.md R25). -/
  commonAnodeMode : Bool
  /-- `BUS_ADDRESS`, read by the bus peripheral only (10_state.md R33). -/
  busAddress : BusAddr
  /-- `COMMON_PIN[0..DIGIT_COUNT-1]` (10_state.md R24). -/
  commonPin : List PinId
  /-- `SEGMENT_PIN[0..7]`, A to DP (10_state.md R24). -/
  segmentPin : List PinId
  /-- `BLANK_PATTERN`, what every cell holds after reset (70_reset_and_hazards.md R141). -/
  blankPattern : Byte
  /-- `REFRESH_THRESHOLD_MS` (41_scan_engine.md R91). -/
  refreshThresholdMs : Nat
  /-- `DWELL_US`, legal in `1..9`; no rule's result depends on it (00_scope.md R6, D11). -/
  dwellUs : Nat
  /-- `BUS_MAX_CLOCK_HZ`; no rule's result depends on it (70_reset_and_hazards.md R160, R163). -/
  busMaxClockHz : Nat
  /-- `READ_PLACEHOLDER`, the answer to every read transaction (40_bus_commands.md R80). -/
  readPlaceholder : Byte
  /-- `RX_CAPACITY`, the longest message delivered whole (60_exceptions.md R134, D14). -/
  rxCapacity : Nat
  /-- `TIME_BITS`, the width of `now` and `last` (10_state.md R28). -/
  timeBits : Nat
  /-- `HOLD_LAST_DIGIT` (41_scan_engine.md R96, D9). -/
  holdLastDigit : Bool
deriving DecidableEq, Repr

/-- Whom a bus transaction is addressed to: the address this client was built with, or an address written out. -/
inductive Target where
  /-- The host uses this client's own `BUS_ADDRESS`, whatever it is. -/
  | thisClient
  /-- The host puts the address `a` on the bus. -/
  | address (a : BusAddr)
deriving DecidableEq, Repr, Inhabited

/-- One turn of one agent (00_scope.md R5). The host's turns carry what the host does; the other three agents have at
most one enabled step each, so a turn names only the agent. -/
inductive Event where
  /-- `HOST` sends a write transaction with payload `m` (30_encoding.md R60). -/
  | hostWrite (dest : Target) (m : Message)
  /-- `HOST` issues a read transaction for `1 + extra` bytes (30_encoding.md R60: one byte, so `extra = 0`). -/
  | hostRead (dest : Target) (extra : Nat)
  /-- `CLOCK` advances `now` (60_exceptions.md R128). -/
  | clock
  /-- `BCH` takes its enabled step (40_bus_commands.md). -/
  | bch
  /-- `SCAN` takes its one enabled step (41_scan_engine.md R90). -/
  | scan
deriving DecidableEq, Repr, Inhabited

/-- FREE VALUE. The event that comes next where the machine's data does not say: the interleaving is not fixed
(60_exceptions.md R121). Argument: how many free turns were drawn before. Log entry 3. -/
opaque Config.freeEvent : Nat → Event

/-- FREE VALUE. The clock reading at reset, before it is cut to `TIME_BITS` bits (70_reset_and_hazards.md R145). Log entry 22. -/
opaque Config.freeNow : Nat

/-- FREE VALUE. `COMMON_ANODE_MODE` of the build (00_scope.md R6: argument). Log entry 2. -/
opaque Config.openAnodeMode : Bool

/-- FREE VALUE. `BUS_ADDRESS` of the build (00_scope.md R6, D22: open). Log entry 2. -/
opaque Config.openBusAddress : BusAddr

/-- FREE VALUE. The pin of each of the logical outputs, numbered commons first, then segments: any assignment of different
pins to different outputs (00_scope.md R6, D17). A permutation of the labels, so that different outputs get different
pins and nothing else is known. Log entry 2. -/
opaque Config.openPins : Equiv.Perm PinId

/-- FREE VALUE. `DWELL_US - 1` of the build (00_scope.md R6, D11: open in `1..9`). Log entry 2. -/
opaque Config.openDwell : Fin 9

/-- FREE VALUE. `READ_PLACEHOLDER` of the build (00_scope.md R6, D15: open). Log entry 2. -/
opaque Config.openPlaceholder : Byte

/-- FREE VALUE. `RX_CAPACITY` of the build (00_scope.md R6, D14: open). Log entry 2. -/
opaque Config.openRxCapacity : Nat

/-- FREE VALUE. `TIME_BITS` of the build (00_scope.md R6, D10: open). Log entry 2. -/
opaque Config.openTimeBits : Nat

/-- The configuration `State.reset` is built with: the value or default 00_scope.md R6 gives, and a free value for every
parameter R6 leaves an argument. Log entry 2. -/
def Config.build : Config where
  digitCount := 6
  commonAnodeMode := Config.openAnodeMode
  busAddress := Config.openBusAddress
  commonPin := (List.range 6).map Config.openPins
  segmentPin := (List.range 8).map (fun k => Config.openPins (6 + k))
  blankPattern := 0x40#8
  refreshThresholdMs := 2
  dwellUs := 1 + Config.openDwell.val
  busMaxClockHz := 400000
  readPlaceholder := Config.openPlaceholder
  rxCapacity := Config.openRxCapacity
  timeBits := Config.openTimeBits
  holdLastDigit := false

end Sys2Proof
end

