-- ==== Sys2Proof/Machine/Operands.lean ====
section
/-! DEFINITION. The operand forms and the integer laws of the data operations (41_scan_engine.md R110): operand assembly, the bit
test, the polarity function and the elapsed time. -/

namespace Sys2Proof.Machine

/-- The index byte as an unsigned integer, not scaled, shifted or sign-extended (30_encoding.md R63). -/
def digitIndex (idx : Byte) : Nat := idx.toNat

/-- The bit test `v[k] = floor(v / 2^k) mod 2`: is segment `k` of the pattern on (30_encoding.md R64, 41_scan_engine.md R110). -/
def segmentBit (v : Byte) (k : Fin 8) : Bool := v.getLsbD k.val

/-- `lvl(b) = b XOR COMMON_ANODE_MODE`: the electrical level that expresses a logical bit (10_state.md R25, the spec's
decision D2, log entry 13). -/
def lvl (c : Config) (b : Bool) : Level := b ^^ c.commonAnodeMode

/-- `ON = lvl(1)` (10_state.md R25). -/
def levelOn (c : Config) : Level := lvl c true

/-- `OFF = lvl(0)` (10_state.md R25). -/
def levelOff (c : Config) : Level := lvl c false

/-- `elapsed = (now - last) mod 2^TIME_BITS`, computed exactly on integers and narrowed at the end (41_scan_engine.md R91,
R110; the spec's decision D10, log entry 17). -/
def elapsed (c : Config) (now last : Nat) : Nat :=
  (((now : Int) - (last : Int)) % ((2 ^ c.timeBits : Nat) : Int)).toNat

/-- The clock reading one millisecond on, `(now + 1) mod 2^TIME_BITS` (60_exceptions.md R128). -/
def nextNow (c : Config) (now : Nat) : Nat := (now + 1) % 2 ^ c.timeBits

end Sys2Proof.Machine
end

