-- ==== Sys2Proof/Machine/Flags.lean ====
section
/-! DEFINITION. The controller has no status flags, condition codes or predicates that any state holds (10_state.md R32). What
decides between two effects is computed where it is used; the three conditions are here. -/

namespace Sys2Proof.Machine

/-- The bounds check of the buffer's contract, on integers: `0 <= addr < DIGIT_COUNT` (20_memory.md R41, R42; 41_scan_engine.md
R110: no wrap, no truncation of `DIGIT_COUNT` to 8 bits). -/
def inRange (c : Config) (addr : Int) : Bool := decide (0 ≤ addr) && decide (addr < (c.digitCount : Int))

/-- The gate's condition, strict: `elapsed > REFRESH_THRESHOLD_MS` (41_scan_engine.md R91, R110). -/
def gateOpen (c : Config) (now last : Nat) : Bool := decide (elapsed c now last > c.refreshThresholdMs)

/-- `i < N-1`: the digit has a successor in the sweep (41_scan_engine.md R90, R96). -/
def hasNextDigit (c : Config) (i : Nat) : Bool := decide (i + 1 < c.digitCount)

end Sys2Proof.Machine
end

