-- ==== Sys2Proof/Machine/State.lean ====
section
/-! DEFINITION. The state of the controller (10_state.md), its reset (70_reset_and_hazards.md R140 to R145) and the reasons a step
can be refused. -/

namespace Sys2Proof.Machine

/-- The Scan Engine's sequencer position (10_state.md R27): which step of `SCAN` is next. -/
inductive Pc where
  /-- `IDLE`: next is `GATE`. -/
  | idle
  /-- `CLEAR`: next is `DESELECT_ALL`. -/
  | clear
  /-- `SEL(i)`: next is `SELECT i`. -/
  | sel (i : Nat)
  /-- `DRV(i, k)`: next is `DRIVE i, k`. -/
  | drv (i : Nat) (k : Fin 8)
  /-- `DWL(i)`: next is `DWELL i`. -/
  | dwl (i : Nat)
  /-- `REL(i)`: next is `RELEASE i`. -/
  | rel (i : Nat)
deriving DecidableEq, Repr

/-- The Digit Buffer as (address, byte) pairs, addresses rising, listing only the cells that differ from `BLANK_PATTERN`
(20_memory.md R40, R47; log entry 26). -/
abbrev Memory := List Host.Cell

/-- The machine's state. Everything 10_state.md section 7 lists, the configuration (00_scope.md R6) and three fields of the
model's own (`hostRx`, `agenda`, `tick`; log entries 3 and 8). -/
structure State where
  /-- The configuration, fixed for the run (00_scope.md R6). -/
  cfg : Config
  /-- `x[0..N-1]`, the Digit Buffer (10_state.md R20). -/
  mem : Memory
  /-- `COM[0..N-1]`, the common-line latches (10_state.md R22). -/
  com : List Level
  /-- `SEG[0..7]`, the segment-line latches, A to DP (10_state.md R23). -/
  seg : Vector Level 8
  /-- The sequencer (10_state.md R27). -/
  pc : Pc
  /-- The time stamp of the last sweep, `TIME_BITS` wide (10_state.md R28). -/
  last : Nat
  /-- The clock reading, `TIME_BITS` wide (10_state.md R29). -/
  now : Nat
  /-- Messages received and not yet taken up, oldest first (10_state.md R30). -/
  rxq : List Message
  /-- The unread bytes of the current message, or none when the handler is idle (10_state.md R30). -/
  rx : Option Message
  /-- MODEL'S OWN: the bytes the host has been answered, oldest first (log entry 8). -/
  hostRx : List Byte
  /-- MODEL'S OWN: the events that come next, oldest first (log entry 3). -/
  agenda : List Event
  /-- MODEL'S OWN: how many free events have been drawn (log entry 3). -/
  tick : Nat
deriving DecidableEq, Repr

/-- No step ever faults: "the controller raises no synchronous exception", nothing halts, traps or stalls (60_exceptions.md R115,
41_scan_engine.md R103). The type has no constructor. -/
inductive Fault where
deriving DecidableEq, Repr

/-- What the model refuses. -/
inductive Refusal where
  /-- Raised by `exec`'s arm of an instruction that has no meaning yet; no arm raises it now. Safe. -/
  | notModelled (mnemonic : String)
  /-- Raised by a meaning whose guard is false: no agent may take that step (00_scope.md section 6.3), and `step` never
  asks for it. Safe (log entry 5). -/
  | notEnabled
  /-- Raised by `DRIVE` when its digit is not on the board: a read at an invalid index has no value and the model refuses the
  call (20_memory.md R42, D20); unreachable. Safe (log entry 11). -/
  | readInvalidIndex
  /-- Raised by the host's write transaction when the message exceeds `RX_CAPACITY` (60_exceptions.md R134, D14). Safe
  (log entry 7). -/
  | messageTooLong
  /-- Raised by the host's read transaction for more than one byte (40_bus_commands.md R80, D15). Safe (log entry 9). -/
  | multiByteRead
  /-- Raised at power-on by a configuration that breaks the constraints of 00_scope.md R6 (60_exceptions.md R117, D17). Safe
  (log entry 12). -/
  | invalidConfig
deriving DecidableEq, Repr

/-- The state right after power-on of a controller built with `c`, the clock reading being `clock` cut to `TIME_BITS` bits
(70_reset_and_hazards.md R140 to R145). `BLANK_PATTERN` in every cell is the buffer with nothing listed; the output levels are
the spec's decision D5, `pc`, `last`, `rxq`, `rx` its decision D6 (log entries 20, 21). -/
def State.resetOf (c : Config) (clock : Nat) : State where
  cfg := c
  mem := []
  com := List.replicate c.digitCount (levelOff c)
  seg := Vector.replicate 8 (levelOff c)
  pc := .idle
  last := 0
  now := clock % 2 ^ c.timeBits
  rxq := []
  rx := none
  hostRx := []
  agenda := []
  tick := 0

/-- The machine right after reset: the build of `Config.build`, the clock at any reading (log entries 2, 22, 23). -/
def State.reset : State := State.resetOf Config.build Config.freeNow

end Sys2Proof.Machine
end

