-- ==== Sys2Proof/Machine/Ops.lean ====
section
/-! DEFINITION. The named operations over the state: field updates, the Digit Buffer's cells and its bounds-checked contract
(20_memory.md), the output latches (10_state.md), the entry of the bus-receive event and the return from it (60_exceptions.md R123, R124),
the host's and the clock's steps, and power-on. -/

namespace Sys2Proof.Machine

/-- What a step or a meaning answers. -/
abbrev Answer := Host.Outcome State Fault Refusal

/-- A step is taken when its guard holds, and refused otherwise (00_scope.md section 6.3; log entry 5). -/
def whenEnabled : Bool → Answer → Answer
  | true, a => a
  | false, _ => .refused .notEnabled

/-! ## Field updates -/

/-- `pc <- p`. -/
def setPc (p : Pc) (s : State) : State := { s with pc := p }

/-- `COM[i] <- b`. -/
def setCom (i : Nat) (b : Level) (s : State) : State := { s with com := s.com.set i b }

/-- `COM[i] <- b` for every `i` in `0..N-1`, at once. -/
def setAllCom (b : Level) (s : State) : State := { s with com := List.replicate s.cfg.digitCount b }

/-- `SEG[k] <- b`. -/
def setSeg (k : Fin 8) (b : Level) (s : State) : State := { s with seg := s.seg.set k.val b k.isLt }

/-- `last <- t`. -/
def setLast (t : Nat) (s : State) : State := { s with last := t }

/-- `now <- t`. -/
def setNow (t : Nat) (s : State) : State := { s with now := t }

/-- `rx <- r`. -/
def setRx (r : Option Message) (s : State) : State := { s with rx := r }

/-- `rxq <- q`. -/
def setRxq (q : List Message) (s : State) : State := { s with rxq := q }

/-- The Digit Buffer becomes `x`. -/
def setMem (x : Memory) (s : State) : State := { s with mem := x }

/-- The host receives the byte `b` (40_bus_commands.md R80). -/
def answerHost (b : Byte) (s : State) : State := { s with hostRx := s.hostRx ++ [b] }

/-- What is still to come is `es`. -/
def setAgenda (es : List Event) (s : State) : State := { s with agenda := es }

/-- `n` free events have been drawn. -/
def setTick (n : Nat) (s : State) : State := { s with tick := n }

/-! ## The Digit Buffer -/

/-- The byte at address `a`; an address that is not listed reads as `d`. -/
def Memory.read (d : Byte) : Memory → Nat → Byte
  | [], _ => d
  | (b, w) :: rest, a => if a = b then w else Memory.read d rest a

/-- The byte at address `a` becomes `v`, all others keep theirs; writing `d` removes the entry, so that the canonical form
is kept (20_memory.md R41: the whole old value is replaced). -/
def Memory.write (d : Byte) : Memory → Nat → Byte → Memory
  | [], a, v => if v = d then [] else [(a, v)]
  | (b, w) :: rest, a, v =>
    if a < b then (if v = d then (b, w) :: rest else (a, v) :: (b, w) :: rest)
    else if a = b then (if v = d then rest else (a, v) :: rest)
    else (b, w) :: Memory.write d rest a v

/-- The canonical form: addresses strictly rising, no entry equal to what an unlisted address reads as. -/
abbrev Memory.wf (d : Byte) (x : Memory) : Prop :=
  x.Pairwise (fun p q => p.1 < q.1) ∧ ∀ p ∈ x, p.2 ≠ d

/-- What a cell that nothing has written holds: `BLANK_PATTERN` (70_reset_and_hazards.md R141; log entry 26). -/
def unlisted (c : Config) : Byte := c.blankPattern

/-- `MemWrite(addr, 1, v)` on the buffer alone: an integer address outside `0..DIGIT_COUNT-1` writes nothing (20_memory.md R41). -/
def storeCell (c : Config) (x : Memory) (addr : Int) (v : Byte) : Memory :=
  if inRange c addr then Memory.write (unlisted c) x addr.toNat v else x

/-- `MemRead(addr, 1)` on the buffer alone: no value at an invalid index (20_memory.md R42, D20). -/
def loadCell (c : Config) (x : Memory) (addr : Int) : Option Byte :=
  if inRange c addr then some (Memory.read (unlisted c) x addr.toNat) else none

/-- `MemWrite(addr, 1, v)` (20_memory.md R41). -/
def memWrite (addr : Int) (v : Byte) (s : State) : State := setMem (storeCell s.cfg s.mem addr v) s

/-- `MemRead(addr, 1)` (20_memory.md R42). A read changes nothing. -/
def memRead (addr : Int) (s : State) : Option Byte := loadCell s.cfg s.mem addr

/-- `ApplyMsg(x, m)`: the effect of one whole message on the buffer (40_bus_commands.md R79). -/
def applyMsg (c : Config) : Memory → Message → Memory
  | x, [] => x
  | x, [_] => x
  | x, idx :: pat :: rest => applyMsg c (storeCell c x (digitIndex idx) pat) rest

/-! ## The output latches -/

/-- `selected(i)`: digit `i`'s common line is at `ON` (10_state.md R26). -/
def selected (i : Nat) (s : State) : Prop := s.com[i]? = some (levelOn s.cfg)

/-- `lit(i, k)`: digit `i` is selected and segment line `k` is at `ON` (10_state.md R26). -/
def lit (i : Nat) (k : Fin 8) (s : State) : Prop := selected i s ∧ s.seg[k] = levelOn s.cfg

/-- The level of the physical pin `p`: `COM[i]` is the pin `COMMON_PIN[i]`, `SEG[k]` the pin `SEGMENT_PIN[k]`
(10_state.md R24; log entry 31). -/
def pinLevel (p : PinId) (s : State) : Option Level :=
  (s.cfg.commonPin.zip s.com ++ s.cfg.segmentPin.zip s.seg.toList).lookup p

/-- Where `pc` goes after `DRIVE i, k` (41_scan_engine.md R90, R94). -/
def afterDrive (i : Nat) (k : Fin 8) : Pc :=
  if h : k.val < 7 then .drv i ⟨k.val + 1, by omega⟩ else .dwl i

/-- Where `pc` goes after `RELEASE i` (41_scan_engine.md R90, R96). -/
def afterRelease (c : Config) (i : Nat) : Pc := if hasNextDigit c i then .sel (i + 1) else .idle

/-- Whether `RELEASE i` deselects digit `i`: every digit but, under `HOLD_LAST_DIGIT`, the last (41_scan_engine.md R96, D9). -/
def releaseDeselects (c : Config) (i : Nat) : Bool := hasNextDigit c i || !c.holdLastDigit

/-! ## The bus-receive event: entry and return -/

/-- Entry: the handler takes up `m`, the oldest message; `q` stays pending. Nothing is saved and nothing else changes
(60_exceptions.md R123). -/
def enterHandler (m : Message) (q : List Message) (s : State) : State := setRxq q (setRx (some m) s)

/-- Return: the handler is idle; there is nothing to restore (60_exceptions.md R124). -/
def leaveHandler (s : State) : State := setRx none s

/-! ## The environment's steps -/

/-- The address a transaction carries on the bus. -/
def targetAddress (c : Config) : Target → BusAddr
  | .thisClient => c.busAddress
  | .address a => a

/-- Whether the bus peripheral hands the transaction to this core: only when it is addressed to `BUS_ADDRESS`
(30_encoding.md R60, D16; log entry 10). -/
def targetReaches (c : Config) : Target → Bool
  | .thisClient => true
  | .address a => decide (a = c.busAddress)

/-- `HOST` has sent the message `m` to this client: it is appended to `rxq` (60_exceptions.md R134, D14); a message
longer than `RX_CAPACITY` is refused. -/
def hostSend (m : Message) (s : State) : Answer :=
  if m.length ≤ s.cfg.rxCapacity then .next (setRxq (s.rxq ++ [m]) s) else .refused .messageTooLong

/-- The `CLOCK` agent's step (60_exceptions.md R128). -/
def clockTick (s : State) : State := setNow (nextNow s.cfg s.now) s

/-! ## Power-on -/

/-- `ValidConfig` (00_scope.md R6, 70_reset_and_hazards.md R166): `DIGIT_COUNT` in `1..256`, `DIGIT_COUNT + 8` different pins,
`DWELL_US` in `1..9`; the other bounds hold by the fields' types. -/
def configValid (c : Config) : Bool :=
  decide (1 ≤ c.digitCount) && decide (c.digitCount ≤ 256) && decide (c.commonPin.length = c.digitCount)
    && decide (c.segmentPin.length = 8) && decide ((c.commonPin ++ c.segmentPin).Nodup)
    && decide (1 ≤ c.dwellUs) && decide (c.dwellUs ≤ 9)

/-- Power-on of a controller built with `c`, the one reset (70_reset_and_hazards.md R140): a configuration that breaks the
constraints is refused (60_exceptions.md R117, D17; log entry 12). -/
def powerOn (c : Config) (clock : Nat) : Answer :=
  if configValid c then .next (State.resetOf c clock) else .refused .invalidConfig

end Sys2Proof.Machine
end

