-- ==== Sys2Proof/Machine/Bus.lean ====
section
/-! DEFINITION. The Bus Command Handler's operations (40_bus_commands.md): `WR`, `TRAIL`, `RD`, `RX_BEGIN`, `RX_END`. -/

namespace Sys2Proof.Machine

/-- `WR idx, pat` (40_bus_commands.md R76). Guard: the next two unread bytes are `idx` and `pat`. They leave `rx`, and
`MemWrite(zext(idx), 1, pat)` is done. -/
def execWr (idx pat : Byte) (s : State) : Answer :=
  match s.rx with
  | some (b0 :: b1 :: rest) =>
    whenEnabled (decide (b0 = idx) && decide (b1 = pat)) (.next (memWrite (digitIndex idx) pat (setRx (some rest) s)))
  | _ => .refused .notEnabled

/-- `TRAIL b` (40_bus_commands.md R77). Guard: `b` is the one unread byte left. It is dropped. -/
def execTrail (b : Byte) (s : State) : Answer :=
  whenEnabled (decide (s.rx = some [b])) (.next (setRx (some []) s))

/-- `RD` (40_bus_commands.md R80). The guard, the host starting a read transaction, is the event that runs it. -/
def execRd (s : State) : Answer := .next (answerHost s.cfg.readPlaceholder s)

/-- `RX_BEGIN` (40_bus_commands.md R75). Guard: the handler is idle and a message is pending. -/
def execRxBegin (s : State) : Answer :=
  match s.rx, s.rxq with
  | none, m :: q => .next (enterHandler m q s)
  | _, _ => .refused .notEnabled

/-- `RX_END` (40_bus_commands.md R78). Guard: the current message has no unread byte. -/
def execRxEnd (s : State) : Answer :=
  whenEnabled (decide (s.rx = some [])) (.next (leaveHandler s))

end Sys2Proof.Machine
end

