-- ==== Sys2Proof/Machine/Scan.lean ====
section
/-! DEFINITION. The Scan Engine's micro-operations (41_scan_engine.md): `GATE`, `DESELECT_ALL`, `SELECT`, `DRIVE`, `DWELL`,
`RELEASE`. Each has a position of the sequencer as its guard (R90). -/

namespace Sys2Proof.Machine

/-- `GATE` (41_scan_engine.md R91). A closed gate changes nothing. -/
def execGate (s : State) : Answer :=
  whenEnabled (decide (s.pc = .idle))
    (.next (if gateOpen s.cfg s.now s.last then setPc .clear (setLast s.now s) else s))

/-- `DESELECT_ALL` (41_scan_engine.md R92): all commons to `OFF` in one step (D7, log entry 14). -/
def execDeselectAll (s : State) : Answer :=
  whenEnabled (decide (s.pc = .clear)) (.next (setPc (.sel 0) (setAllCom (levelOff s.cfg) s)))

/-- `SELECT i` (41_scan_engine.md R93). -/
def execSelect (i : Nat) (s : State) : Answer :=
  whenEnabled (decide (s.pc = .sel i)) (.next (setPc (.drv i 0) (setCom i (levelOn s.cfg) s)))

/-- `DRIVE i, k` (41_scan_engine.md R94): the cell is read anew at each of the eight steps (D8, log entry 15). A read at an
index that is not on the board is refused (20_memory.md R42). -/
def execDrive (i : Nat) (k : Fin 8) (s : State) : Answer :=
  whenEnabled (decide (s.pc = .drv i k))
    (match memRead i s with
      | some v => .next (setPc (afterDrive i k) (setSeg k (lvl s.cfg (segmentBit v k)) s))
      | none => .refused .readInvalidIndex)

/-- `DWELL i` (41_scan_engine.md R95): only `pc` advances (D11, log entry 18). -/
def execDwell (i : Nat) (s : State) : Answer :=
  whenEnabled (decide (s.pc = .dwl i)) (.next (setPc (.rel i) s))

/-- `RELEASE i` (41_scan_engine.md R96; D9, log entry 16). -/
def execRelease (i : Nat) (s : State) : Answer :=
  whenEnabled (decide (s.pc = .rel i))
    (.next (setPc (afterRelease s.cfg i) (if releaseDeselects s.cfg i then setCom i (levelOff s.cfg) s else s)))

end Sys2Proof.Machine
end

