-- ==== Sys2Proof/Machine/Dispatch.lean ====
section
/-! DEFINITION. The meaning of every operation: one arm per constructor. -/

namespace Sys2Proof.Machine

def exec (i : Instr) (s : State) : Host.Outcome State Fault Refusal :=
  match i with
  | .wr idx pat => Sys2Proof.Machine.execWr idx pat s
  | .trail b => Sys2Proof.Machine.execTrail b s
  | .rd => Sys2Proof.Machine.execRd s
  | .rxBegin => Sys2Proof.Machine.execRxBegin s
  | .rxEnd => Sys2Proof.Machine.execRxEnd s
  | .gate => Sys2Proof.Machine.execGate s
  | .deselectAll => Sys2Proof.Machine.execDeselectAll s
  | .select digit => Sys2Proof.Machine.execSelect digit s
  | .drive digit k => Sys2Proof.Machine.execDrive digit k s
  | .dwell digit => Sys2Proof.Machine.execDwell digit s
  | .release digit => Sys2Proof.Machine.execRelease digit s

end Sys2Proof.Machine
end

