-- ==== Sys2Proof/Machine/Agents.lean ====
section
/-! DEFINITION. Which operation each agent takes next (00_scope.md R5), what one event does, and which event comes next
(60_exceptions.md R121). -/

namespace Sys2Proof.Machine

/-- The handler's enabled operation, if it has one (40_bus_commands.md R75 to R78): idle, it takes up a pending message; with
unread bytes, it decodes the next operation of the message; with none left, it returns. -/
def bchInstr (s : State) : Option Instr :=
  match s.rx with
  | none =>
    match s.rxq with
    | [] => none
    | _ :: _ => some .rxBegin
  | some m =>
    match decodeFirst m with
    | .ok (i, _) => some i
    | .error _ => some .rxEnd

/-- The Scan Engine's one enabled operation, chosen by `pc` (10_state.md R27, 41_scan_engine.md R90). -/
def scanInstr : Pc → Instr
  | .idle => .gate
  | .clear => .deselectAll
  | .sel i => .select i
  | .drv i k => .drive i k
  | .dwl i => .dwell i
  | .rel i => .release i

/-- The host's read transaction (40_bus_commands.md R80): one byte is answered by `RD`; a read of more than one byte is refused
(D15, log entry 9). -/
def hostAsk (extra : Nat) (s : State) : Answer :=
  if extra = 0 then exec .rd s else .refused .multiByteRead

/-- The handler's turn. When it has nothing to do its turn changes nothing (log entry 34). -/
def bchTurn (s : State) : Answer :=
  match bchInstr s with
  | some i => exec i s
  | none => .next s

/-- The Scan Engine's turn. -/
def scanTurn (s : State) : Answer := exec (scanInstr s.pc) s

/-- What one event does. A transaction addressed to another client is invisible to the core (30_encoding.md R60, D16). -/
def perform (e : Event) (s : State) : Answer :=
  match e with
  | .hostWrite dest m => if targetReaches s.cfg dest then hostSend m s else .next s
  | .hostRead dest extra => if targetReaches s.cfg dest then hostAsk extra s else .next s
  | .clock => .next (clockTick s)
  | .bch => bchTurn s
  | .scan => scanTurn s

/-- The event that comes next and the state once it has been taken off: the oldest of the agenda, and past its end a free
event (60_exceptions.md R121, log entry 3). -/
def takeTurn (s : State) : Event × State :=
  match s.agenda with
  | e :: es => (e, setAgenda es s)
  | [] => (Config.freeEvent s.tick, setTick (s.tick + 1) s)

/-- Prepares the very next step to run the operation decoded from `m`: the message's bytes become the handler's unread
bytes and the handler has the next turn (log entry 29). -/
def placeMessage (m : Message) (s : State) : State := setAgenda (.bch :: s.agenda) (setRx (some m) s)

/-- Prepares the very next step to be a one-byte read transaction to this client (log entry 29). -/
def placeRead (s : State) : State := setAgenda (.hostRead .thisClient 0 :: s.agenda) s

end Sys2Proof.Machine
end

