-- ==== Sys2Proof/Machine/Step.lean ====
section
/-! DEFINITION. One step of the machine: one event of one agent (00_scope.md section 6.3, 60_exceptions.md R121). -/

namespace Sys2Proof.Machine

/-- Take the next event off and perform it. -/
def step (s : State) : Host.Outcome State Fault Refusal :=
  perform (takeTurn s).1 (takeTurn s).2

/-- `s` with an instruction of `nbits` bits `w` placed so that the very next step runs it: a read transaction when it has no
bits, else its bytes as the unread bytes of the current message with the handler's turn next (log entry 29). -/
def State.withFetchWord (s : State) (nbits w : Nat) : State :=
  if nbits = 0 then placeRead s else placeMessage (wordBytes (nbits / 8) w) s

end Sys2Proof.Machine
end

