-- ==== Sys2Proof/Safety.lean ====
section
/-! DEFINITION. What claims are stated in: the guards (00_scope.md section 6.3), the well-formed states, the selection invariant
(41_scan_engine.md R99), runs along a list of events, the effect still pending, and the two views of one machine that differ in
polarity only (R102). -/

namespace Sys2Proof.Machine

/-- The guard of each operation (40_bus_commands.md R75 to R80, 41_scan_engine.md R91 to R96). -/
def enabled : Instr → State → Bool
  | .wr idx pat, s =>
    match s.rx with
    | some (b0 :: b1 :: _) => decide (b0 = idx) && decide (b1 = pat)
    | _ => false
  | .trail b, s => decide (s.rx = some [b])
  | .rd, _ => true
  | .rxBegin, s => decide (s.rx = none) && !s.rxq.isEmpty
  | .rxEnd, s => decide (s.rx = some [])
  | .gate, s => decide (s.pc = .idle)
  | .deselectAll, s => decide (s.pc = .clear)
  | .select i, s => decide (s.pc = .sel i)
  | .drive i k, s => decide (s.pc = .drv i k)
  | .dwell i, s => decide (s.pc = .dwl i)
  | .release i, s => decide (s.pc = .rel i)

/-- The operations of the Scan Engine (00_scope.md R5). -/
def isScanOp : Instr → Bool
  | .wr _ _ => false
  | .trail _ => false
  | .rd => false
  | .rxBegin => false
  | .rxEnd => false
  | .gate => true
  | .deselectAll => true
  | .select _ => true
  | .drive _ _ => true
  | .dwell _ => true
  | .release _ => true

/-- `pc` is one of the `2 + 11 N` values of 10_state.md R27. -/
def Pc.onBoard (n : Nat) : Pc → Bool
  | .idle => true
  | .clear => true
  | .sel i => decide (i < n)
  | .drv i _ => decide (i < n)
  | .dwl i => decide (i < n)
  | .rel i => decide (i < n)

/-- The states the machine can be in: the configuration is valid (R166 `ValidConfig`), the buffer is in canonical form and
holds populated addresses only (20_memory.md R47), there is one common latch per digit (10_state.md R22), `pc` has one of its
values (R27), the time values fit `TIME_BITS` (R28, R29), and every message fits `RX_CAPACITY` (R134). -/
structure State.WF (s : State) : Prop where
  cfgOk : configValid s.cfg = true
  memOk : Memory.wf (unlisted s.cfg) s.mem
  memOnBoard : ∀ p ∈ s.mem, p.1 < s.cfg.digitCount
  comOk : s.com.length = s.cfg.digitCount
  pcOk : s.pc.onBoard s.cfg.digitCount = true
  lastOk : s.last < 2 ^ s.cfg.timeBits
  nowOk : s.now < 2 ^ s.cfg.timeBits
  rxqOk : ∀ m ∈ s.rxq, m.length ≤ s.cfg.rxCapacity
  rxOk : ∀ m ∈ s.rx, m.length ≤ s.cfg.rxCapacity

/-- No digit is selected. -/
def NoneSelected (s : State) : Prop := ∀ j, ¬ selected j s

/-- Digit `i` is selected and no other is. -/
def OnlySelected (i : Nat) (s : State) : Prop := selected i s ∧ ∀ j, selected j s → j = i

/-- The selection invariant, position by position (41_scan_engine.md R99, whose `HOLD_LAST_DIGIT = 1` line is the second case of
`IDLE` and `CLEAR`). -/
def SelectionInv (s : State) : Prop :=
  match s.pc with
  | .idle => NoneSelected s ∨ (s.cfg.holdLastDigit = true ∧ OnlySelected (s.cfg.digitCount - 1) s)
  | .clear => NoneSelected s ∨ (s.cfg.holdLastDigit = true ∧ OnlySelected (s.cfg.digitCount - 1) s)
  | .sel _ => NoneSelected s
  | .drv i _ => OnlySelected i s
  | .dwl i => OnlySelected i s
  | .rel i => OnlySelected i s

/-- A quiescent state: no message is pending or being handled and the engine is between sweeps (70_reset_and_hazards.md R165). -/
def Quiescent (s : State) : Prop := s.rxq = [] ∧ s.rx = none ∧ s.pc = .idle

/-- Perform a list of events in order, stopping at the first refusal. -/
def play : List Event → State → Answer
  | [], s => .next s
  | e :: es, s =>
    match perform e s with
    | .next t => play es t
    | .fault f => .fault f
    | .refused r => .refused r

/-- `HostInBounds` (70_reset_and_hazards.md R166): a message to this client fits `RX_CAPACITY`, a read of this client asks for one
byte. -/
def hostInBounds (c : Config) : Event → Bool
  | .hostWrite dest m => !targetReaches c dest || decide (m.length ≤ c.rxCapacity)
  | .hostRead dest extra => !targetReaches c dest || decide (extra = 0)
  | .clock => true
  | .bch => true
  | .scan => true

/-- `Fair` (60_exceptions.md R121, R128; 70_reset_and_hazards.md R166): an endless order of turns in which `BCH`, `SCAN` and
`CLOCK` have a turn again and again. A premise of liveness claims only; a turn without an enabled step changes nothing, so
this is weak fairness (log entry 4). -/
def Fair (order : Nat → Event) : Prop :=
  ∀ n, (∃ m, n ≤ m ∧ order m = .bch) ∧ (∃ m, n ≤ m ∧ order m = .scan) ∧ (∃ m, n ≤ m ∧ order m = .clock)

/-- The first `n` turns of an order. -/
def firstTurns (order : Nat → Event) (n : Nat) : List Event := (List.range n).map order

/-- The `l` turns of an order from turn `k` on. -/
def turnsFrom (order : Nat → Event) (k l : Nat) : List Event := (List.range l).map (fun j => order (k + j))

/-- The clock does not outrun the gate: in no stretch without a turn of `SCAN` does it count so far that an elapsed time not
yet past the threshold would wrap. `Fair` alone does not say so, and without it a gate looked at too rarely may be found
closed for ever (41_scan_engine.md R110, elapsed time; log entry 36). -/
def ClockKeepsPace (c : Config) (order : Nat → Event) : Prop :=
  ∀ k l, .scan ∉ turnsFrom order k l → c.refreshThresholdMs + (turnsFrom order k l).count .clock < 2 ^ c.timeBits

/-- The buffer once every byte already received has been handled: the unread bytes of the current message, then the pending
messages in order (40_bus_commands.md R79, 20_memory.md R49). -/
def settled (s : State) : Memory :=
  s.rxq.foldl (applyMsg s.cfg) (applyMsg s.cfg s.mem (s.rx.getD []))

/-- The message an event delivers to this client, if it is one that does (30_encoding.md R60). -/
def delivered (c : Config) : Event → List Message
  | .hostWrite dest m => if targetReaches c dest then [m] else []
  | .hostRead _ _ => []
  | .clock => []
  | .bch => []
  | .scan => []

/-- Whether an event is a read transaction to this client (30_encoding.md R60, R68). -/
def asksThisClient (c : Config) : Event → Bool
  | .hostWrite _ _ => false
  | .hostRead dest _ => targetReaches c dest
  | .clock => false
  | .bch => false
  | .scan => false

/-- During the pass over digit `d`, the lines already driven show the pattern `p`: all of them at `DWL(d)`, lines
`0..k-1` at `DRV(d, k)`, none required elsewhere (41_scan_engine.md R94, R101, R108). -/
def Shows (d : Nat) (p : Byte) (s : State) : Prop :=
  match s.pc with
  | .idle => True
  | .clear => True
  | .sel _ => True
  | .drv i k => i = d → ∀ j : Fin 8, j.val < k.val → s.seg[j] = lvl s.cfg (segmentBit p j)
  | .dwl i => i = d → ∀ j : Fin 8, s.seg[j] = lvl s.cfg (segmentBit p j)
  | .rel i => i = d → ∀ j : Fin 8, s.seg[j] = lvl s.cfg (segmentBit p j)

/-- The same machine with the other polarity: `COMMON_ANODE_MODE` toggled and every electrical level complemented
(41_scan_engine.md R102). -/
def flipPolarity (s : State) : State :=
  { s with
    cfg := { s.cfg with commonAnodeMode := !s.cfg.commonAnodeMode }
    com := s.com.map (fun b => !b)
    seg := s.seg.map (fun b => !b) }

/-- An answer with its next state seen through `f`. -/
def mapNext (f : State → State) : Answer → Answer
  | .next s => .next (f s)
  | .fault r => .fault r
  | .refused r => .refused r

end Sys2Proof.Machine
end

