-- ==== Sys2Proof/Certificates/Slice0/Obligations.lean ====
section
/-! DEFINITION. The statements for the provers. Where a statement rests on a choice of the spec (a decision `D<n>`) or of the
model (a log entry), its docstring says so. -/

open Sys2Proof Sys2Proof.Machine

/-! ## A step, its events and the operation it runs -/

/-- One step performs the event that comes next: the oldest of the agenda, and a free event when the agenda is empty
(60_exceptions.md section 3; the form of the schedule is the model's choice, log entry 3). -/
def Obligations.StepPerformsNextEvent : Prop :=
  ∀ s : State,
    (∀ e es, s.agenda = e :: es → step s = perform e { s with agenda := es }) ∧
    (s.agenda = [] → step s = perform (Config.freeEvent s.tick) { s with tick := s.tick + 1 })

/-- At a turn of the handler, `step` is `exec` of the operation decoded from the unread bytes; of `RX_END` when none is
left; of `RX_BEGIN` when the handler is idle and a message is pending; and the turn changes nothing when the handler has
no enabled step (the model's choice, log entry 34). -/
def Obligations.StepRunsDecodedInstruction : Prop :=
  ∀ (s : State) (es : List Event), s.agenda = .bch :: es →
    (∀ m i rest, s.rx = some m → decodeFirst m = .ok (i, rest) → step s = exec i { s with agenda := es }) ∧
    (s.rx = some [] → step s = exec .rxEnd { s with agenda := es }) ∧
    (s.rx = none → s.rxq ≠ [] → step s = exec .rxBegin { s with agenda := es }) ∧
    (s.rx = none → s.rxq = [] → step s = .next { s with agenda := es })

/-- At a turn of the Scan Engine, `step` is `exec` of the operation that `pc` names (10_state.md R27, 41_scan_engine.md R90;
the form of `pc` is the spec's decision D19). -/
def Obligations.StepRunsSequencerPosition : Prop :=
  ∀ (s : State) (es : List Event), s.agenda = .scan :: es →
    (s.pc = .idle → step s = exec .gate { s with agenda := es }) ∧
    (s.pc = .clear → step s = exec .deselectAll { s with agenda := es }) ∧
    (∀ i, s.pc = .sel i → step s = exec (.select i) { s with agenda := es }) ∧
    (∀ i k, s.pc = .drv i k → step s = exec (.drive i k) { s with agenda := es }) ∧
    (∀ i, s.pc = .dwl i → step s = exec (.dwell i) { s with agenda := es }) ∧
    (∀ i, s.pc = .rel i → step s = exec (.release i) { s with agenda := es })

/-- A read transaction of one byte to this client's address runs `RD`, one to another address changes nothing, and a read
of more than one byte is refused (decisions D15, D16; log entries 9, 10). -/
def Obligations.StepRunsReadTransaction : Prop :=
  ∀ (s : State) (es : List Event) (dest : Target) (extra : Nat), s.agenda = .hostRead dest extra :: es →
    (targetAddress s.cfg dest = s.cfg.busAddress → extra = 0 → step s = exec .rd { s with agenda := es }) ∧
    (targetAddress s.cfg dest = s.cfg.busAddress → extra ≠ 0 → step s = .refused .multiByteRead) ∧
    (targetAddress s.cfg dest ≠ s.cfg.busAddress → step s = .next { s with agenda := es })

/-- A write transaction to this client's address is appended to `rxq` whole, one longer than `RX_CAPACITY` is refused, and
one to another address changes nothing (decisions D14, D16; log entries 6, 7, 10). -/
def Obligations.HostWriteQueuesMessage : Prop :=
  ∀ (s : State) (es : List Event) (dest : Target) (m : Message), s.agenda = .hostWrite dest m :: es →
    (targetAddress s.cfg dest = s.cfg.busAddress → m.length ≤ s.cfg.rxCapacity →
      step s = .next { s with agenda := es, rxq := s.rxq ++ [m] }) ∧
    (targetAddress s.cfg dest = s.cfg.busAddress → s.cfg.rxCapacity < m.length → step s = .refused .messageTooLong) ∧
    (targetAddress s.cfg dest ≠ s.cfg.busAddress → step s = .next { s with agenda := es })

/-- The clock's turn is `now <- (now + 1) mod 2^TIME_BITS` and changes nothing else (60_exceptions.md section 6; the width is the
spec's decision D10). -/
def Obligations.ClockAdvancesModuloWidth : Prop :=
  ∀ (s : State) (es : List Event), s.agenda = .clock :: es →
    step s = .next { s with agenda := es, now := (s.now + 1) % 2 ^ s.cfg.timeBits }

/-! ## The handler's operations -/

/-- `WR` consumes two bytes; it stores the pattern in the cell when the index is on the board and writes nothing when it is
not; every other cell and all other state keep their values (40_bus_commands.md R76). The buffer's canonical form is the
invariant of `StepKeepsWellFormed`. -/
def Obligations.WrStoresOrDropsPair : Prop :=
  ∀ (s : State) (idx pat : Byte) (rest : Message), Memory.wf (unlisted s.cfg) s.mem → s.rx = some (idx :: pat :: rest) →
    (digitIndex idx < s.cfg.digitCount →
      ∃ t, exec (.wr idx pat) s = .next t ∧ memRead (digitIndex idx) t = some pat ∧
        (∀ a : Int, a ≠ digitIndex idx → memRead a t = memRead a s) ∧
        t = { s with rx := some rest, mem := t.mem }) ∧
    (s.cfg.digitCount ≤ digitIndex idx → exec (.wr idx pat) s = .next { s with rx := some rest })

/-- `TRAIL` drops the one unread byte, whatever it is, and changes nothing else (40_bus_commands.md R77). -/
def Obligations.TrailDiscardsByte : Prop :=
  ∀ (s : State) (b : Byte), s.rx = some [b] → exec (.trail b) s = .next { s with rx := some [] }

/-- `RX_BEGIN` moves the oldest pending message to `rx` and changes nothing else (40_bus_commands.md section 1, 60_exceptions.md
section 4; first in, first out is the spec's decision D14). -/
def Obligations.RxBeginTakesOldestMessage : Prop :=
  ∀ (s : State) (m : Message) (q : List Message), s.rx = none → s.rxq = m :: q →
    exec .rxBegin s = .next { s with rx := some m, rxq := q }

/-- `RX_END` makes the handler idle and changes nothing else (40_bus_commands.md R78). -/
def Obligations.RxEndReturns : Prop :=
  ∀ s : State, s.rx = some [] → exec .rxEnd s = .next { s with rx := none }

/-- `RD` gives the host the byte `READ_PLACEHOLDER` and writes nothing else, in every state (40_bus_commands.md section 1; the
value is open, D15; the field that holds what the host received is the model's own, log entry 8). -/
def Obligations.RdAnswersPlaceholder : Prop :=
  ∀ s : State, exec .rd s = .next { s with hostRx := s.hostRx ++ [s.cfg.readPlaceholder] }

/-- Along every run the host receives the byte `READ_PLACEHOLDER` once for every read transaction to this client, and nothing
else (40_bus_commands.md section 1, 30_encoding.md section 3; decisions D15, D16; log entries 8, 9, 10: a read of more than one
byte ends the run). -/
def Obligations.HostReceivesOnlyPlaceholder : Prop :=
  ∀ (es : List Event) (s t : State), play es s = .next t →
    t.hostRx = s.hostRx ++ List.replicate (es.countP (asksThisClient s.cfg)) s.cfg.readPlaceholder

/-! ## The Scan Engine's operations -/

/-- `GATE`: open exactly when `(now - last) mod 2^TIME_BITS > REFRESH_THRESHOLD_MS`; open, it stamps `last` and starts the
sweep; closed, it changes nothing (41_scan_engine.md section 3; the stamp and the modulus are the spec's decision D10). -/
def Obligations.GateOpensOrChangesNothing : Prop :=
  ∀ s : State, s.pc = .idle →
    (elapsed s.cfg s.now s.last > s.cfg.refreshThresholdMs → exec .gate s = .next { s with last := s.now, pc := .clear }) ∧
    (elapsed s.cfg s.now s.last ≤ s.cfg.refreshThresholdMs → exec .gate s = .next s)

/-- The elapsed time of two `TIME_BITS`-wide readings is their difference, and across one wrap of the clock the difference
plus `2^TIME_BITS` (41_scan_engine.md section 6; decision D10). -/
def Obligations.ElapsedCrossesOneWrap : Prop :=
  ∀ (c : Config) (now last : Nat), now < 2 ^ c.timeBits → last < 2 ^ c.timeBits →
    (last ≤ now → elapsed c now last = now - last) ∧
    (now < last → elapsed c now last = now + 2 ^ c.timeBits - last)

/-- With `last` at its reset value the gate starts the first sweep exactly when the clock has passed the threshold
(70_reset_and_hazards.md section 2; decisions D6, D10). -/
def Obligations.FirstSweepStartsPastThreshold : Prop :=
  ∀ s : State, s.pc = .idle → s.last = 0 → s.now < 2 ^ s.cfg.timeBits →
    exec .gate s =
      .next (if s.cfg.refreshThresholdMs < s.now then { s with last := s.now, pc := .clear } else s)

/-- `DESELECT_ALL` puts every common line to `OFF` in one step and touches nothing but `COM` and `pc` (41_scan_engine.md section
3; one step for all lines is the spec's decision D7). -/
def Obligations.DeselectAllTurnsCommonsOff : Prop :=
  ∀ s : State, s.pc = .clear →
    exec .deselectAll s =
      .next { s with com := List.replicate s.cfg.digitCount (levelOff s.cfg), pc := .sel 0 }

/-- `SELECT i` puts common line `i` to `ON`; no other common and no segment line changes (41_scan_engine.md R93). -/
def Obligations.SelectTurnsOneCommonOn : Prop :=
  ∀ (s : State) (i : Nat), s.pc = .sel i → i < s.com.length →
    ∃ t, exec (.select i) s = .next t ∧ t.com[i]? = some (levelOn s.cfg) ∧
      (∀ j, j ≠ i → t.com[j]? = s.com[j]?) ∧ t = { s with com := t.com, pc := .drv i 0 }

/-- `DRIVE i, k` puts segment line `k` to the level of bit `k` of the pattern now stored for digit `i`, and changes nothing
else but `pc` (41_scan_engine.md section 3; one line a step, ascending, is the spec's decision D8; that the level is the bit
exclusive-or `COMMON_ANODE_MODE` is its decision D2, log entry 13). -/
def Obligations.DriveSetsOneSegmentLine : Prop :=
  ∀ (s : State) (i : Nat) (k : Fin 8) (v : Byte), s.pc = .drv i k → memRead i s = some v →
    ∃ t, exec (.drive i k) s = .next t ∧ t.seg[k] = (v.getLsbD k.val ^^ s.cfg.commonAnodeMode) ∧
      (∀ j : Fin 8, j ≠ k → t.seg[j] = s.seg[j]) ∧
      (∀ h : k.val + 1 < 8, t.pc = .drv i ⟨k.val + 1, h⟩) ∧
      (k.val = 7 → t.pc = .dwl i) ∧ t = { s with seg := t.seg, pc := t.pc }

/-- `DWELL i` only advances `pc` (41_scan_engine.md section 3; no time passes in the model, decision D11). -/
def Obligations.DwellOnlyAdvancesPc : Prop :=
  ∀ (s : State) (i : Nat), s.pc = .dwl i → exec (.dwell i) s = .next { s with pc := .rel i }

/-- `RELEASE i` deselects digit `i` and goes to the next digit; the last digit ends the tick and is deselected too, unless
`HOLD_LAST_DIGIT` (41_scan_engine.md section 3; the last digit is the spec's decision D9). -/
def Obligations.ReleaseDeselectsDigit : Prop :=
  ∀ (s : State) (i : Nat), s.pc = .rel i →
    (i + 1 < s.cfg.digitCount →
      exec (.release i) s = .next { s with com := s.com.set i (levelOff s.cfg), pc := .sel (i + 1) }) ∧
    (s.cfg.digitCount ≤ i + 1 → s.cfg.holdLastDigit = false →
      exec (.release i) s = .next { s with com := s.com.set i (levelOff s.cfg), pc := .idle }) ∧
    (s.cfg.digitCount ≤ i + 1 → s.cfg.holdLastDigit = true → exec (.release i) s = .next { s with pc := .idle })

/-- `DRIVE` of a digit that is not on the board is refused: a read at an invalid index has no value (20_memory.md section 2;
decision D20, log entry 11). -/
def Obligations.DriveOffBoardRefused : Prop :=
  ∀ (s : State) (i : Nat) (k : Fin 8), s.pc = .drv i k → s.cfg.digitCount ≤ i →
    exec (.drive i k) s = .refused .readInvalidIndex

/-! ## Guards and completion -/

/-- An operation whose guard is false is refused (00_scope.md section 6.3; the model's choice, log entry 5). -/
def Obligations.DisabledOperationRefused : Prop :=
  ∀ (i : Instr) (s : State), enabled i s = false → exec i s = .refused .notEnabled

/-- In a well-formed state every operation whose guard holds completes: none can fail, trap or stall (41_scan_engine.md section
4, 60_exceptions.md section 1). -/
def Obligations.EnabledOperationCompletes : Prop :=
  ∀ (i : Instr) (s : State), s.WF → enabled i s = true → ∃ t, exec i s = .next t

/-- In a well-formed state every turn of `BCH`, `SCAN` and `CLOCK`, and every host transaction within bounds, completes
(41_scan_engine.md section 4, 60_exceptions.md sections 1 and 9). That a turn of `BCH` with nothing to do completes, changing
nothing, is the model's choice (log entry 34). -/
def Obligations.EventInBoundsCompletes : Prop :=
  ∀ (s : State) (e : Event), s.WF → hostInBounds s.cfg e = true → ∃ t, perform e s = .next t

/-! ## Frames and footprints -/

/-- The handler's operations neither read nor write `COM`, `SEG`, `pc`, `last` or `now`: run in a state that differs in these,
they do the same, and leave these as they were (40_bus_commands.md section 2, 60_exceptions.md section 5). -/
def Obligations.HandlerIgnoresScanState : Prop :=
  ∀ (i : Instr) (s : State) (com : List Level) (seg : Vector Level 8) (pc : Pc) (last now : Nat), isScanOp i = false →
    exec i { s with com := com, seg := seg, pc := pc, last := last, now := now } =
      mapNext (fun t => { t with com := com, seg := seg, pc := pc, last := last, now := now }) (exec i s)

/-- What the handler's operations leave alone besides: only `WR` writes a cell, only `RX_BEGIN` writes `rxq`, only `RD`
gives the host a byte; the configuration and the schedule are never written (40_bus_commands.md section 2). -/
def Obligations.HandlerFrame : Prop :=
  ∀ (i : Instr) (s t : State), isScanOp i = false → exec i s = .next t →
    t = { s with mem := t.mem, rx := t.rx, rxq := t.rxq, hostRx := t.hostRx } ∧
    ((∀ idx pat, i ≠ .wr idx pat) → ∀ a, memRead a t = memRead a s) ∧
    (∀ idx pat, i = .wr idx pat → ∀ a : Int, a ≠ digitIndex idx → memRead a t = memRead a s) ∧
    (i ≠ .rxBegin → t.rxq = s.rxq) ∧ (i ≠ .rd → t.hostRx = s.hostRx) ∧ (i = .rd → t.rx = s.rx)

/-- The Scan Engine's operations write `COM`, `SEG`, `pc` and `last` only, no cell of the buffer, and neither read nor write the
handler's state (41_scan_engine.md section 4). -/
def Obligations.ScanFrame : Prop :=
  ∀ (i : Instr) (s : State) (rx : Option Message) (rxq : List Message) (out : List Byte), isScanOp i = true →
    (∀ t, exec i s = .next t →
      t = { s with com := t.com, seg := t.seg, pc := t.pc, last := t.last } ∧ ∀ a, memRead a t = memRead a s) ∧
    exec i { s with rx := rx, rxq := rxq, hostRx := out } =
      mapNext (fun t => { t with rx := rx, rxq := rxq, hostRx := out }) (exec i s)

/-- Which agent may change what, over whole events: only `BCH` changes the buffer and `rx`, only `SCAN` the latches, `pc` and
`last`, only `CLOCK` the clock, only `HOST` and `BCH` the queue, only a read transaction what the host received
(10_state.md sections 1, 2 and 7; 60_exceptions.md section 5). -/
def Obligations.AgentsWriteOnlyTheirState : Prop :=
  ∀ (e : Event) (s t : State), perform e s = .next t →
    (e ≠ .bch → t.mem = s.mem ∧ t.rx = s.rx) ∧
    (e ≠ .scan → t.com = s.com ∧ t.seg = s.seg ∧ t.pc = s.pc ∧ t.last = s.last) ∧
    (e ≠ .clock → t.now = s.now) ∧
    (e = .clock ∨ e = .scan → t.rxq = s.rxq) ∧
    ((∀ dest extra, e ≠ .hostRead dest extra) → t.hostRx = s.hostRx)

/-- No operation and no step changes the configuration (00_scope.md section 5; that it rides in the state is the model's choice,
log entry 1). -/
def Obligations.ConfigurationNeverChanges : Prop :=
  ∀ s t : State, step s = .next t → t.cfg = s.cfg

/-- A segment line changes only by the `DRIVE` of that line, and then to the level of its bit in the pattern now stored:
neither the deselections nor the handler clear the segment lines (41_scan_engine.md section 4). -/
def Obligations.SegmentLineChangesOnlyByDrive : Prop :=
  ∀ (s t : State) (k : Fin 8), step s = .next t → t.seg[k] ≠ s.seg[k] →
    ∃ i v, s.pc = .drv i k ∧ memRead i s = some v ∧ t.seg[k] = lvl s.cfg (segmentBit v k)

/-- A sweep starts only at an idle engine whose gate is open, and nothing else writes the time stamp (41_scan_engine.md section
3; decision D10). -/
def Obligations.OnlyOpenGateStartsSweep : Prop :=
  ∀ s t : State, step s = .next t → (t.last ≠ s.last ∨ (t.pc = .clear ∧ s.pc ≠ .clear)) →
    s.pc = .idle ∧ elapsed s.cfg s.now s.last > s.cfg.refreshThresholdMs ∧ t.last = s.now ∧ t.pc = .clear

/-! ## Reset and the invariants -/

/-- Power-on gives the reset state exactly when `DIGIT_COUNT` is in `1..256`, there is one common pin per digit and there are
eight segment pins, all of them different, and `DWELL_US` is in `1..9`; it refuses every other configuration; and these
constraints are what `configValid` says (00_scope.md section 5, 60_exceptions.md section 1, 70_reset_and_hazards.md section 6;
decisions D3, D11, D17, log entry 12). The bounds of the one-bit, 7-bit and 8-bit parameters hold by their types. -/
def Obligations.PowerOnRefusesInvalidConfig : Prop :=
  ∀ (c : Config) (clock : Nat),
    (((1 ≤ c.digitCount ∧ c.digitCount ≤ 256) ∧ (c.commonPin.length = c.digitCount ∧ c.segmentPin.length = 8) ∧
        (c.commonPin ++ c.segmentPin).Nodup ∧ (1 ≤ c.dwellUs ∧ c.dwellUs ≤ 9)) ↔ configValid c = true) ∧
    (configValid c = true → powerOn c clock = .next (State.resetOf c clock)) ∧
    (configValid c = false → powerOn c clock = .refused .invalidConfig)

/-- After reset every cell of the buffer holds `BLANK_PATTERN`, which is `0x40` in the build's configuration
(70_reset_and_hazards.md R141). -/
def Obligations.ResetBufferHoldsBlank : Prop :=
  (∀ (c : Config) (clock i : Nat), i < c.digitCount → memRead i (State.resetOf c clock) = some c.blankPattern) ∧
  Config.build.blankPattern = 0x40#8

/-- After reset no digit is selected and every segment line is `OFF`, the engine is idle with `last = 0`, no message is
pending or being handled (70_reset_and_hazards.md section 1; decisions D5 and D6, log entries 20, 21). -/
def Obligations.ResetIsDarkIdleAndEmpty : Prop :=
  ∀ (c : Config) (clock : Nat),
    (∀ i, i < c.digitCount → (State.resetOf c clock).com[i]? = some (levelOff c)) ∧
    NoneSelected (State.resetOf c clock) ∧
    (∀ k : Fin 8, (State.resetOf c clock).seg[k] = levelOff c) ∧
    Quiescent (State.resetOf c clock) ∧ (State.resetOf c clock).last = 0

/-- The reset state of every valid configuration is well formed and meets the selection invariant (70_reset_and_hazards.md
section 1). -/
def Obligations.ResetMeetsInvariants : Prop :=
  ∀ (c : Config) (clock : Nat), configValid c = true →
    (State.resetOf c clock).WF ∧ SelectionInv (State.resetOf c clock)

/-- The one configuration of `State.reset` is valid and `State.reset` is well formed; the proof can use nothing of its open
parameters, which are opaque, but their types (00_scope.md section 5; decision D17, log entry 2). -/
def Obligations.BuildConfigIsValid : Prop := configValid Config.build = true ∧ State.reset.WF

/-- Every step keeps a state well formed: the buffer canonical and on the board, one latch per digit, `pc` on the board,
the time values within `TIME_BITS`, the messages within `RX_CAPACITY` (10_state.md section 7). -/
def Obligations.StepKeepsWellFormed : Prop :=
  ∀ s t : State, s.WF → step s = .next t → t.WF

/-- Every step keeps the selection invariant, position by position (41_scan_engine.md section 4, R99). -/
def Obligations.StepKeepsSelection : Prop :=
  ∀ s t : State, s.WF → SelectionInv s → step s = .next t → SelectionInv t

/-- No double-select: along every interleaving of the agents from power-on, at most one digit is selected
(41_scan_engine.md section 4). -/
def Obligations.NoDoubleSelect : Prop :=
  ∀ (c : Config) (clock : Nat) (es : List Event) (t : State), configValid c = true →
    play es (State.resetOf c clock) = .next t → ∀ i j, selected i t → selected j t → i = j

/-- Deselect before select: `SEL(0)` is entered only by `DESELECT_ALL` and `SEL(i+1)` only by `RELEASE i`, and on entry no
digit is selected (41_scan_engine.md section 4). -/
def Obligations.DeselectPrecedesSelect : Prop :=
  ∀ (s t : State) (i : Nat), s.WF → SelectionInv s → step s = .next t → t.pc = .sel i → s.pc ≠ .sel i →
    ((i = 0 ∧ s.pc = .clear) ∨ (∃ j, i = j + 1 ∧ s.pc = .rel j)) ∧ NoneSelected t

/-! ## The buffer's contract and the messages -/

/-- `MemWrite(addr, 1, v)` for an integer `addr`: on the board it replaces that cell and no other; off the board, negative
addresses included, it changes nothing (20_memory.md R41). -/
def Obligations.MemWriteContract : Prop :=
  ∀ (s : State) (a : Int) (v : Byte), Memory.wf (unlisted s.cfg) s.mem →
    (0 ≤ a → a < s.cfg.digitCount →
      memRead a (memWrite a v s) = some v ∧ (∀ b, b ≠ a → memRead b (memWrite a v s) = memRead b s) ∧
        memWrite a v s = { s with mem := (memWrite a v s).mem }) ∧
    (a < 0 ∨ s.cfg.digitCount ≤ a → memWrite a v s = s)

/-- `MemRead(addr, 1)` has a value exactly at the valid indices (20_memory.md section 2; no value at an invalid index is the
spec's decision D20). -/
def Obligations.MemReadDefinedOnBoard : Prop :=
  ∀ (s : State) (a : Int), (∃ v, memRead a s = some v) ↔ 0 ≤ a ∧ a < s.cfg.digitCount

/-- Writing the value a cell already holds changes nothing (20_memory.md section 3). -/
def Obligations.RewriteChangesNothing : Prop :=
  ∀ (s : State) (a : Int) (v : Byte), Memory.wf (unlisted s.cfg) s.mem → memRead a s = some v → memWrite a v s = s

/-- A trailing byte has no effect: `ApplyMsg(x, m ++ [b]) = ApplyMsg(x, m)` for every even-length `m` (40_bus_commands.md section
3). -/
def Obligations.TrailingByteHasNoEffect : Prop :=
  ∀ (c : Config) (x : Memory) (m : Message) (b : Byte), m.length % 2 = 0 → applyMsg c x (m ++ [b]) = applyMsg c x m

/-- The later pair wins: after a message in which a pair `(idx, pat)` on the board is followed by no other pair for `idx`, the
cell holds `pat`, whatever came before (40_bus_commands.md section 3). -/
def Obligations.LaterPairWins : Prop :=
  ∀ (c : Config) (x : Memory) (m m' : Message) (idx pat : Byte), Memory.wf (unlisted c) x → m.length % 2 = 0 →
    digitIndex idx < c.digitCount → (∀ p, Instr.wr idx p ∉ decode m') →
    loadCell c (applyMsg c x (m ++ idx :: pat :: m')) (digitIndex idx) = some pat

/-- The handler's run over one message: the turns it takes, at most `floor(L/2) + 3`, apply the whole message to the buffer and
leave the handler idle (40_bus_commands.md section 2). -/
def Obligations.HandlerRunAppliesMessage : Prop :=
  ∀ (s : State) (m : Message) (q : List Message), s.rx = none → s.rxq = m :: q →
    ∃ n, n ≤ m.length / 2 + 3 ∧
      play (List.replicate n .bch) s = .next { s with rx := none, rxq := q, mem := applyMsg s.cfg s.mem m }

/-- However the agents interleave, at every quiescent state the buffer is the one the run started towards, with the
messages delivered since applied whole and in the order sent (70_reset_and_hazards.md section 5, 20_memory.md section 4;
lossless first-in-first-out delivery is the spec's decision D14). -/
def Obligations.QuiescentBufferIsMessagesApplied : Prop :=
  ∀ (es : List Event) (s t : State), play es s = .next t →
    settled t = (es.flatMap (delivered s.cfg)).foldl (applyMsg s.cfg) (settled s) ∧
    (Quiescent t → t.mem = (es.flatMap (delivered s.cfg)).foldl (applyMsg s.cfg) (settled s))

/-- However the other agents interleave, a handler that has `L` unread bytes is idle again after at most `floor(L/2) + 2` of its
own turns (`RX_BEGIN` makes the `floor(L/2) + 3` of 40_bus_commands.md section 2). -/
def Obligations.HandlerReturnsWithinItsTurns : Prop :=
  ∀ (es : List Event) (s t : State) (m : Message), s.rx = some m → m.length / 2 + 2 ≤ es.count .bch →
    play es s = .next t → ∃ n u, play (es.take n) s = .next u ∧ u.rx = none

/-- However the other agents interleave, a sweep under way ends after at most `1 + 11 N` turns of the Scan Engine: nothing
cancels, restarts or stalls it (41_scan_engine.md section 2; the grain is decisions D7 and D8). -/
def Obligations.SweepEndsWithinItsTurns : Prop :=
  ∀ (es : List Event) (s t : State), s.WF → 1 + 11 * s.cfg.digitCount ≤ es.count .scan → play es s = .next t →
    ∃ n u, play (es.take n) s = .next u ∧ u.pc = .idle

/-- Under fairness and a host within bounds the machine runs for ever, and after any number `k` of its turns: every message
that is pending or under way is, some turns later, taken up and applied, with only the messages sent since still pending;
a sweep that is under way ends; and where the clock keeps pace with the gate, a sweep starts (40_bus_commands.md section 2,
41_scan_engine.md section 6, 60_exceptions.md section 3; fairness is the premise of the spec's decision D23, log entry 4;
the last clause's premise is log entry 36; delivery is decision D14, the gate's arithmetic D10). -/
def Obligations.FairRunAppliesMessagesAndSweeps : Prop :=
  ∀ (order : Nat → Event) (s : State), s.WF → Fair order → (∀ n, hostInBounds s.cfg (order n) = true) →
    ∀ k, ∃ t, play (firstTurns order k) s = .next t ∧
      (∃ n u, play (turnsFrom order k n) t = .next u ∧ u.rx = none ∧
        u.rxq = (turnsFrom order k n).flatMap (delivered s.cfg) ∧ u.mem = settled t) ∧
      (∃ n u, play (turnsFrom order k n) t = .next u ∧ u.pc = .idle) ∧
      (ClockKeepsPace s.cfg order → ∃ n u, play (turnsFrom order k n) t = .next u ∧ u.pc = .clear)

/-! ## What is displayed -/

/-- From `DRV(i, k)`, with lines `0..k-1` driven from a pattern `u` and `w` stored now, the remaining turns of the Scan Engine
bring it to `DWL(i)` with those lines still showing `u` and all others `w`: the mixture of 41_scan_engine.md section 5, and for
`k = 0` the whole pattern `w`. It lasts one dwell: as long as `w` stays stored, however the agents interleave, once the
engine has left this dwell every later `DWL(i)` shows `w` on all lines (one read per line is the spec's decision D8). -/
def Obligations.TornRenderingMixesAtWrite : Prop :=
  ∀ (s : State) (i : Nat) (k : Fin 8) (u w : Byte), s.pc = .drv i k → memRead i s = some w →
    (∀ j : Fin 8, j.val < k.val → s.seg[j] = lvl s.cfg (segmentBit u j)) →
    ∃ t, play (List.replicate (8 - k.val) .scan) s = .next t ∧ t = { s with seg := t.seg, pc := .dwl i } ∧
      (∀ j : Fin 8, t.seg[j] = lvl s.cfg (segmentBit (if j.val < k.val then u else w) j)) ∧
      ∀ (es : List Event) (v : State), (∀ n x, play (es.take n) t = .next x → memRead i x = some w) →
        (∃ n x, play (es.take n) t = .next x ∧ x.pc ≠ .dwl i) → play es t = .next v → v.pc = .dwl i →
        ∀ j : Fin 8, v.seg[j] = lvl s.cfg (segmentBit w j)

/-- Every step keeps the lines already driven in the pass over digit `d` at the pattern `p` that is stored for it: none at
`SEL(d)`, lines `0..k-1` at `DRV(d, k)`, all at `DWL(d)` (41_scan_engine.md sections 3 and 4; ascending order and one read per
line are the spec's decision D8). -/
def Obligations.StepKeepsShownPattern : Prop :=
  ∀ (s t : State) (d : Nat) (p : Byte), memRead d s = some p → Shows d p s → step s = .next t → Shows d p t

/-- The uninterrupted sweep of a well-formed state takes `1 + 11 N` turns: digit `i` is dwelt on after `1 + 11 i + 9` of them
with exactly its common on and its pattern on the segment lines; at the end every common is off (all but the last under
`HOLD_LAST_DIGIT`), the segment lines keep the last digit's pattern, the engine is idle and the buffer unchanged
(41_scan_engine.md section 4; decisions D7 to D9). -/
def Obligations.UninterruptedSweepShowsBuffer : Prop :=
  ∀ s : State, s.WF → s.pc = .clear →
    (∀ i v, memRead (i : Nat) s = some v →
      ∃ t, play (List.replicate (1 + 11 * i + 9) .scan) s = .next t ∧
        t = { s with com := (List.replicate s.cfg.digitCount (levelOff s.cfg)).set i (levelOn s.cfg), seg := t.seg, pc := .dwl i } ∧
        ∀ k : Fin 8, t.seg[k] = lvl s.cfg (segmentBit v k)) ∧
    (∃ t, play (List.replicate (1 + 11 * s.cfg.digitCount) .scan) s = .next t ∧
      t = { s with
        com := if s.cfg.holdLastDigit
          then (List.replicate s.cfg.digitCount (levelOff s.cfg)).set (s.cfg.digitCount - 1) (levelOn s.cfg)
          else List.replicate s.cfg.digitCount (levelOff s.cfg)
        seg := t.seg, pc := .idle } ∧
      ∀ v, memRead (s.cfg.digitCount - 1 : Nat) s = some v → ∀ k : Fin 8, t.seg[k] = lvl s.cfg (segmentBit v k))

/-- The write-visibility bound: let `p` be stored in cell `d` and stay there along a run, however the agents interleave, that
starts outside a pass that drove other levels. Whenever digit `d` is dwelt on, it is lit exactly with `p` and no other
digit is lit (41_scan_engine.md sections 4 and 5; one read per line, ascending, is the spec's decision D8). -/
def Obligations.StoredPatternIsDisplayed : Prop :=
  ∀ (es : List Event) (s t : State) (d : Nat) (p : Byte), s.WF → SelectionInv s → Shows d p s →
    (∀ n u, play (es.take n) s = .next u → memRead d u = some p) →
    play es s = .next t → t.pc = .dwl d →
    ∀ k : Fin 8, (lit d k t ↔ segmentBit p k = true) ∧ ∀ j, j ≠ d → ¬ lit j k t

/-- Polarity symmetry: toggling `COMMON_ANODE_MODE` and complementing every level commutes with every step and with reset, and
changes neither which digits are selected nor which segments are lit (41_scan_engine.md section 4; which level is `ON` is the
spec's decision D2). -/
def Obligations.PolaritySymmetry : Prop :=
  (∀ s : State, step (flipPolarity s) = mapNext flipPolarity (step s)) ∧
  (∀ (c : Config) (clock : Nat),
    State.resetOf { c with commonAnodeMode := !c.commonAnodeMode } clock = flipPolarity (State.resetOf c clock)) ∧
  (∀ (s : State) (i : Nat) (k : Fin 8),
    (selected i (flipPolarity s) ↔ selected i s) ∧ (lit i k (flipPolarity s) ↔ lit i k s))

/-- Each physical pin of the Pin Mapping carries its latch: `COMMON_PIN[i]` the level of `COM[i]`, `SEGMENT_PIN[k]` that of
`SEG[k]` (10_state.md section 2; distinct pins are the spec's decision D17). -/
def Obligations.PinsCarryTheirLatches : Prop :=
  ∀ s : State, s.WF →
    (∀ (i : Nat) (p : PinId), s.cfg.commonPin[i]? = some p → pinLevel p s = s.com[i]?) ∧
    (∀ (k : Fin 8) (p : PinId), s.cfg.segmentPin[k.val]? = some p → pinLevel p s = some s.seg[k])

/-- Every interleaving is a run of the machine: from a state with an empty agenda, given any finite list of events, the
machine performs exactly those (20_memory.md section 4, 60_exceptions.md section 3; log entry 3). -/
def Obligations.EveryInterleavingIsARun : Prop :=
  ∀ (es : List Event) (s : State), s.agenda = [] → Host.Core.run core es.length { s with agenda := es } = play es s

/-! ## Encoding -/

/-- Words written out from 30_encoding.md: a pair is the index byte then the pattern byte, a lone byte is a trailing byte, no
bits are a read transaction, and a message of five bytes is two pairs and a trailing byte. That the first byte of a
numbered word is its highest (log entry 27) and that a word of no bits is read as `RD` (log entry 28) are the model's
deductions from opcode_table.json. -/
def Obligations.HandWrittenWordsDecode : Prop :=
  decodeTableWord 16 0b0000000000111111 = some (.wr 0x00#8 0x3F#8) ∧
  decodeTableWord 16 0b0000100111111111 = some (.wr 0x09#8 0xFF#8) ∧
  decodeTableWord 8 0b00000101 = some (.trail 0x05#8) ∧
  decodeTableWord 0 0 = some .rd ∧
  decode [0x09#8, 0xFF#8, 0x02#8, 0x5B#8, 0x07#8] = [.wr 0x09#8 0xFF#8, .wr 0x02#8 0x5B#8, .trail 0x07#8]

/-- Decoding by position: pair `j` of a message is bytes `2j` and `2j+1`, in order; a message of length `L` holds `floor(L/2)`
pairs and, when `L` is odd, one trailing byte, and nothing else (30_encoding.md R61). -/
def Obligations.MessageIsPairsThenTrailingByte : Prop :=
  ∀ m : Message,
    (decode m).length = m.length / 2 + m.length % 2 ∧
    (∀ (j : Nat) (a b : Byte), m[2 * j]? = some a → m[2 * j + 1]? = some b → (decode m)[j]? = some (.wr a b)) ∧
    (∀ b : Byte, m.length % 2 = 1 → m[m.length - 1]? = some b → (decode m)[m.length / 2]? = some (.trail b))

/-- Decode and encode agree: an encoded operation decodes to itself, with every operand at every value; an operation list
that can stand in a message decodes to itself; and every message is the encoding of what it decodes to
(30_encoding.md sections 4 and 5; concatenation as notation is the spec's decision D18). -/
def Obligations.DecodeInvertsEncode : Prop :=
  (∀ (i : Instr) (t : Transaction), encode i = some t → decodeTransaction t = [i]) ∧
  (∀ (ops : List Instr) (m : Message), encodeMessage ops = some m → decode m = ops) ∧
  (∀ m : Message, encodeMessage (decode m) = some m)
end

