-- ==== Sys2Proof/Laws/State.lean ====
section
/-! SUPPORT. What each field update of Machine/Ops.lean does to each field of the state: one lemma per field per update. -/

namespace Sys2Proof.Machine

@[simp] theorem setPc_cfg (p : Pc) (s : State) : (setPc p s).cfg = s.cfg := rfl
@[simp] theorem setPc_mem (p : Pc) (s : State) : (setPc p s).mem = s.mem := rfl
@[simp] theorem setPc_com (p : Pc) (s : State) : (setPc p s).com = s.com := rfl
@[simp] theorem setPc_seg (p : Pc) (s : State) : (setPc p s).seg = s.seg := rfl
@[simp] theorem setPc_pc (p : Pc) (s : State) : (setPc p s).pc = p := rfl
@[simp] theorem setPc_last (p : Pc) (s : State) : (setPc p s).last = s.last := rfl
@[simp] theorem setPc_now (p : Pc) (s : State) : (setPc p s).now = s.now := rfl
@[simp] theorem setPc_rxq (p : Pc) (s : State) : (setPc p s).rxq = s.rxq := rfl
@[simp] theorem setPc_rx (p : Pc) (s : State) : (setPc p s).rx = s.rx := rfl
@[simp] theorem setPc_hostRx (p : Pc) (s : State) : (setPc p s).hostRx = s.hostRx := rfl
@[simp] theorem setPc_agenda (p : Pc) (s : State) : (setPc p s).agenda = s.agenda := rfl
@[simp] theorem setPc_tick (p : Pc) (s : State) : (setPc p s).tick = s.tick := rfl

@[simp] theorem setCom_cfg (i : Nat) (b : Level) (s : State) : (setCom i b s).cfg = s.cfg := rfl
@[simp] theorem setCom_mem (i : Nat) (b : Level) (s : State) : (setCom i b s).mem = s.mem := rfl
@[simp] theorem setCom_com (i : Nat) (b : Level) (s : State) : (setCom i b s).com = s.com.set i b := rfl
@[simp] theorem setCom_seg (i : Nat) (b : Level) (s : State) : (setCom i b s).seg = s.seg := rfl
@[simp] theorem setCom_pc (i : Nat) (b : Level) (s : State) : (setCom i b s).pc = s.pc := rfl
@[simp] theorem setCom_last (i : Nat) (b : Level) (s : State) : (setCom i b s).last = s.last := rfl
@[simp] theorem setCom_now (i : Nat) (b : Level) (s : State) : (setCom i b s).now = s.now := rfl
@[simp] theorem setCom_rxq (i : Nat) (b : Level) (s : State) : (setCom i b s).rxq = s.rxq := rfl
@[simp] theorem setCom_rx (i : Nat) (b : Level) (s : State) : (setCom i b s).rx = s.rx := rfl
@[simp] theorem setCom_hostRx (i : Nat) (b : Level) (s : State) : (setCom i b s).hostRx = s.hostRx := rfl
@[simp] theorem setCom_agenda (i : Nat) (b : Level) (s : State) : (setCom i b s).agenda = s.agenda := rfl
@[simp] theorem setCom_tick (i : Nat) (b : Level) (s : State) : (setCom i b s).tick = s.tick := rfl

@[simp] theorem setAllCom_cfg (b : Level) (s : State) : (setAllCom b s).cfg = s.cfg := rfl
@[simp] theorem setAllCom_mem (b : Level) (s : State) : (setAllCom b s).mem = s.mem := rfl
@[simp] theorem setAllCom_com (b : Level) (s : State) : (setAllCom b s).com = List.replicate s.cfg.digitCount b := rfl
@[simp] theorem setAllCom_seg (b : Level) (s : State) : (setAllCom b s).seg = s.seg := rfl
@[simp] theorem setAllCom_pc (b : Level) (s : State) : (setAllCom b s).pc = s.pc := rfl
@[simp] theorem setAllCom_last (b : Level) (s : State) : (setAllCom b s).last = s.last := rfl
@[simp] theorem setAllCom_now (b : Level) (s : State) : (setAllCom b s).now = s.now := rfl
@[simp] theorem setAllCom_rxq (b : Level) (s : State) : (setAllCom b s).rxq = s.rxq := rfl
@[simp] theorem setAllCom_rx (b : Level) (s : State) : (setAllCom b s).rx = s.rx := rfl
@[simp] theorem setAllCom_hostRx (b : Level) (s : State) : (setAllCom b s).hostRx = s.hostRx := rfl
@[simp] theorem setAllCom_agenda (b : Level) (s : State) : (setAllCom b s).agenda = s.agenda := rfl
@[simp] theorem setAllCom_tick (b : Level) (s : State) : (setAllCom b s).tick = s.tick := rfl

@[simp] theorem setSeg_cfg (k : Fin 8) (b : Level) (s : State) : (setSeg k b s).cfg = s.cfg := rfl
@[simp] theorem setSeg_mem (k : Fin 8) (b : Level) (s : State) : (setSeg k b s).mem = s.mem := rfl
@[simp] theorem setSeg_com (k : Fin 8) (b : Level) (s : State) : (setSeg k b s).com = s.com := rfl
@[simp] theorem setSeg_seg (k : Fin 8) (b : Level) (s : State) : (setSeg k b s).seg = s.seg.set k.val b k.isLt := rfl
@[simp] theorem setSeg_pc (k : Fin 8) (b : Level) (s : State) : (setSeg k b s).pc = s.pc := rfl
@[simp] theorem setSeg_last (k : Fin 8) (b : Level) (s : State) : (setSeg k b s).last = s.last := rfl
@[simp] theorem setSeg_now (k : Fin 8) (b : Level) (s : State) : (setSeg k b s).now = s.now := rfl
@[simp] theorem setSeg_rxq (k : Fin 8) (b : Level) (s : State) : (setSeg k b s).rxq = s.rxq := rfl
@[simp] theorem setSeg_rx (k : Fin 8) (b : Level) (s : State) : (setSeg k b s).rx = s.rx := rfl
@[simp] theorem setSeg_hostRx (k : Fin 8) (b : Level) (s : State) : (setSeg k b s).hostRx = s.hostRx := rfl
@[simp] theorem setSeg_agenda (k : Fin 8) (b : Level) (s : State) : (setSeg k b s).agenda = s.agenda := rfl
@[simp] theorem setSeg_tick (k : Fin 8) (b : Level) (s : State) : (setSeg k b s).tick = s.tick := rfl

@[simp] theorem setLast_cfg (t : Nat) (s : State) : (setLast t s).cfg = s.cfg := rfl
@[simp] theorem setLast_mem (t : Nat) (s : State) : (setLast t s).mem = s.mem := rfl
@[simp] theorem setLast_com (t : Nat) (s : State) : (setLast t s).com = s.com := rfl
@[simp] theorem setLast_seg (t : Nat) (s : State) : (setLast t s).seg = s.seg := rfl
@[simp] theorem setLast_pc (t : Nat) (s : State) : (setLast t s).pc = s.pc := rfl
@[simp] theorem setLast_last (t : Nat) (s : State) : (setLast t s).last = t := rfl
@[simp] theorem setLast_now (t : Nat) (s : State) : (setLast t s).now = s.now := rfl
@[simp] theorem setLast_rxq (t : Nat) (s : State) : (setLast t s).rxq = s.rxq := rfl
@[simp] theorem setLast_rx (t : Nat) (s : State) : (setLast t s).rx = s.rx := rfl
@[simp] theorem setLast_hostRx (t : Nat) (s : State) : (setLast t s).hostRx = s.hostRx := rfl
@[simp] theorem setLast_agenda (t : Nat) (s : State) : (setLast t s).agenda = s.agenda := rfl
@[simp] theorem setLast_tick (t : Nat) (s : State) : (setLast t s).tick = s.tick := rfl

@[simp] theorem setNow_cfg (t : Nat) (s : State) : (setNow t s).cfg = s.cfg := rfl
@[simp] theorem setNow_mem (t : Nat) (s : State) : (setNow t s).mem = s.mem := rfl
@[simp] theorem setNow_com (t : Nat) (s : State) : (setNow t s).com = s.com := rfl
@[simp] theorem setNow_seg (t : Nat) (s : State) : (setNow t s).seg = s.seg := rfl
@[simp] theorem setNow_pc (t : Nat) (s : State) : (setNow t s).pc = s.pc := rfl
@[simp] theorem setNow_last (t : Nat) (s : State) : (setNow t s).last = s.last := rfl
@[simp] theorem setNow_now (t : Nat) (s : State) : (setNow t s).now = t := rfl
@[simp] theorem setNow_rxq (t : Nat) (s : State) : (setNow t s).rxq = s.rxq := rfl
@[simp] theorem setNow_rx (t : Nat) (s : State) : (setNow t s).rx = s.rx := rfl
@[simp] theorem setNow_hostRx (t : Nat) (s : State) : (setNow t s).hostRx = s.hostRx := rfl
@[simp] theorem setNow_agenda (t : Nat) (s : State) : (setNow t s).agenda = s.agenda := rfl
@[simp] theorem setNow_tick (t : Nat) (s : State) : (setNow t s).tick = s.tick := rfl

@[simp] theorem setRx_cfg (r : Option Message) (s : State) : (setRx r s).cfg = s.cfg := rfl
@[simp] theorem setRx_mem (r : Option Message) (s : State) : (setRx r s).mem = s.mem := rfl
@[simp] theorem setRx_com (r : Option Message) (s : State) : (setRx r s).com = s.com := rfl
@[simp] theorem setRx_seg (r : Option Message) (s : State) : (setRx r s).seg = s.seg := rfl
@[simp] theorem setRx_pc (r : Option Message) (s : State) : (setRx r s).pc = s.pc := rfl
@[simp] theorem setRx_last (r : Option Message) (s : State) : (setRx r s).last = s.last := rfl
@[simp] theorem setRx_now (r : Option Message) (s : State) : (setRx r s).now = s.now := rfl
@[simp] theorem setRx_rxq (r : Option Message) (s : State) : (setRx r s).rxq = s.rxq := rfl
@[simp] theorem setRx_rx (r : Option Message) (s : State) : (setRx r s).rx = r := rfl
@[simp] theorem setRx_hostRx (r : Option Message) (s : State) : (setRx r s).hostRx = s.hostRx := rfl
@[simp] theorem setRx_agenda (r : Option Message) (s : State) : (setRx r s).agenda = s.agenda := rfl
@[simp] theorem setRx_tick (r : Option Message) (s : State) : (setRx r s).tick = s.tick := rfl

@[simp] theorem setRxq_cfg (q : List Message) (s : State) : (setRxq q s).cfg = s.cfg := rfl
@[simp] theorem setRxq_mem (q : List Message) (s : State) : (setRxq q s).mem = s.mem := rfl
@[simp] theorem setRxq_com (q : List Message) (s : State) : (setRxq q s).com = s.com := rfl
@[simp] theorem setRxq_seg (q : List Message) (s : State) : (setRxq q s).seg = s.seg := rfl
@[simp] theorem setRxq_pc (q : List Message) (s : State) : (setRxq q s).pc = s.pc := rfl
@[simp] theorem setRxq_last (q : List Message) (s : State) : (setRxq q s).last = s.last := rfl
@[simp] theorem setRxq_now (q : List Message) (s : State) : (setRxq q s).now = s.now := rfl
@[simp] theorem setRxq_rxq (q : List Message) (s : State) : (setRxq q s).rxq = q := rfl
@[simp] theorem setRxq_rx (q : List Message) (s : State) : (setRxq q s).rx = s.rx := rfl
@[simp] theorem setRxq_hostRx (q : List Message) (s : State) : (setRxq q s).hostRx = s.hostRx := rfl
@[simp] theorem setRxq_agenda (q : List Message) (s : State) : (setRxq q s).agenda = s.agenda := rfl
@[simp] theorem setRxq_tick (q : List Message) (s : State) : (setRxq q s).tick = s.tick := rfl

@[simp] theorem setMem_cfg (x : Memory) (s : State) : (setMem x s).cfg = s.cfg := rfl
@[simp] theorem setMem_mem (x : Memory) (s : State) : (setMem x s).mem = x := rfl
@[simp] theorem setMem_com (x : Memory) (s : State) : (setMem x s).com = s.com := rfl
@[simp] theorem setMem_seg (x : Memory) (s : State) : (setMem x s).seg = s.seg := rfl
@[simp] theorem setMem_pc (x : Memory) (s : State) : (setMem x s).pc = s.pc := rfl
@[simp] theorem setMem_last (x : Memory) (s : State) : (setMem x s).last = s.last := rfl
@[simp] theorem setMem_now (x : Memory) (s : State) : (setMem x s).now = s.now := rfl
@[simp] theorem setMem_rxq (x : Memory) (s : State) : (setMem x s).rxq = s.rxq := rfl
@[simp] theorem setMem_rx (x : Memory) (s : State) : (setMem x s).rx = s.rx := rfl
@[simp] theorem setMem_hostRx (x : Memory) (s : State) : (setMem x s).hostRx = s.hostRx := rfl
@[simp] theorem setMem_agenda (x : Memory) (s : State) : (setMem x s).agenda = s.agenda := rfl
@[simp] theorem setMem_tick (x : Memory) (s : State) : (setMem x s).tick = s.tick := rfl

@[simp] theorem answerHost_cfg (b : Byte) (s : State) : (answerHost b s).cfg = s.cfg := rfl
@[simp] theorem answerHost_mem (b : Byte) (s : State) : (answerHost b s).mem = s.mem := rfl
@[simp] theorem answerHost_com (b : Byte) (s : State) : (answerHost b s).com = s.com := rfl
@[simp] theorem answerHost_seg (b : Byte) (s : State) : (answerHost b s).seg = s.seg := rfl
@[simp] theorem answerHost_pc (b : Byte) (s : State) : (answerHost b s).pc = s.pc := rfl
@[simp] theorem answerHost_last (b : Byte) (s : State) : (answerHost b s).last = s.last := rfl
@[simp] theorem answerHost_now (b : Byte) (s : State) : (answerHost b s).now = s.now := rfl
@[simp] theorem answerHost_rxq (b : Byte) (s : State) : (answerHost b s).rxq = s.rxq := rfl
@[simp] theorem answerHost_rx (b : Byte) (s : State) : (answerHost b s).rx = s.rx := rfl
@[simp] theorem answerHost_hostRx (b : Byte) (s : State) : (answerHost b s).hostRx = s.hostRx ++ [b] := rfl
@[simp] theorem answerHost_agenda (b : Byte) (s : State) : (answerHost b s).agenda = s.agenda := rfl
@[simp] theorem answerHost_tick (b : Byte) (s : State) : (answerHost b s).tick = s.tick := rfl

@[simp] theorem setAgenda_cfg (es : List Event) (s : State) : (setAgenda es s).cfg = s.cfg := rfl
@[simp] theorem setAgenda_mem (es : List Event) (s : State) : (setAgenda es s).mem = s.mem := rfl
@[simp] theorem setAgenda_com (es : List Event) (s : State) : (setAgenda es s).com = s.com := rfl
@[simp] theorem setAgenda_seg (es : List Event) (s : State) : (setAgenda es s).seg = s.seg := rfl
@[simp] theorem setAgenda_pc (es : List Event) (s : State) : (setAgenda es s).pc = s.pc := rfl
@[simp] theorem setAgenda_last (es : List Event) (s : State) : (setAgenda es s).last = s.last := rfl
@[simp] theorem setAgenda_now (es : List Event) (s : State) : (setAgenda es s).now = s.now := rfl
@[simp] theorem setAgenda_rxq (es : List Event) (s : State) : (setAgenda es s).rxq = s.rxq := rfl
@[simp] theorem setAgenda_rx (es : List Event) (s : State) : (setAgenda es s).rx = s.rx := rfl
@[simp] theorem setAgenda_hostRx (es : List Event) (s : State) : (setAgenda es s).hostRx = s.hostRx := rfl
@[simp] theorem setAgenda_agenda (es : List Event) (s : State) : (setAgenda es s).agenda = es := rfl
@[simp] theorem setAgenda_tick (es : List Event) (s : State) : (setAgenda es s).tick = s.tick := rfl

@[simp] theorem setTick_cfg (n : Nat) (s : State) : (setTick n s).cfg = s.cfg := rfl
@[simp] theorem setTick_mem (n : Nat) (s : State) : (setTick n s).mem = s.mem := rfl
@[simp] theorem setTick_com (n : Nat) (s : State) : (setTick n s).com = s.com := rfl
@[simp] theorem setTick_seg (n : Nat) (s : State) : (setTick n s).seg = s.seg := rfl
@[simp] theorem setTick_pc (n : Nat) (s : State) : (setTick n s).pc = s.pc := rfl
@[simp] theorem setTick_last (n : Nat) (s : State) : (setTick n s).last = s.last := rfl
@[simp] theorem setTick_now (n : Nat) (s : State) : (setTick n s).now = s.now := rfl
@[simp] theorem setTick_rxq (n : Nat) (s : State) : (setTick n s).rxq = s.rxq := rfl
@[simp] theorem setTick_rx (n : Nat) (s : State) : (setTick n s).rx = s.rx := rfl
@[simp] theorem setTick_hostRx (n : Nat) (s : State) : (setTick n s).hostRx = s.hostRx := rfl
@[simp] theorem setTick_agenda (n : Nat) (s : State) : (setTick n s).agenda = s.agenda := rfl
@[simp] theorem setTick_tick (n : Nat) (s : State) : (setTick n s).tick = n := rfl

@[simp] theorem memWrite_cfg (a : Int) (v : Byte) (s : State) : (memWrite a v s).cfg = s.cfg := rfl
@[simp] theorem memWrite_mem (a : Int) (v : Byte) (s : State) : (memWrite a v s).mem = storeCell s.cfg s.mem a v := rfl
@[simp] theorem memWrite_com (a : Int) (v : Byte) (s : State) : (memWrite a v s).com = s.com := rfl
@[simp] theorem memWrite_seg (a : Int) (v : Byte) (s : State) : (memWrite a v s).seg = s.seg := rfl
@[simp] theorem memWrite_pc (a : Int) (v : Byte) (s : State) : (memWrite a v s).pc = s.pc := rfl
@[simp] theorem memWrite_last (a : Int) (v : Byte) (s : State) : (memWrite a v s).last = s.last := rfl
@[simp] theorem memWrite_now (a : Int) (v : Byte) (s : State) : (memWrite a v s).now = s.now := rfl
@[simp] theorem memWrite_rxq (a : Int) (v : Byte) (s : State) : (memWrite a v s).rxq = s.rxq := rfl
@[simp] theorem memWrite_rx (a : Int) (v : Byte) (s : State) : (memWrite a v s).rx = s.rx := rfl
@[simp] theorem memWrite_hostRx (a : Int) (v : Byte) (s : State) : (memWrite a v s).hostRx = s.hostRx := rfl
@[simp] theorem memWrite_agenda (a : Int) (v : Byte) (s : State) : (memWrite a v s).agenda = s.agenda := rfl
@[simp] theorem memWrite_tick (a : Int) (v : Byte) (s : State) : (memWrite a v s).tick = s.tick := rfl

@[simp] theorem enterHandler_cfg (m : Message) (q : List Message) (s : State) : (enterHandler m q s).cfg = s.cfg := rfl
@[simp] theorem enterHandler_mem (m : Message) (q : List Message) (s : State) : (enterHandler m q s).mem = s.mem := rfl
@[simp] theorem enterHandler_com (m : Message) (q : List Message) (s : State) : (enterHandler m q s).com = s.com := rfl
@[simp] theorem enterHandler_seg (m : Message) (q : List Message) (s : State) : (enterHandler m q s).seg = s.seg := rfl
@[simp] theorem enterHandler_pc (m : Message) (q : List Message) (s : State) : (enterHandler m q s).pc = s.pc := rfl
@[simp] theorem enterHandler_last (m : Message) (q : List Message) (s : State) : (enterHandler m q s).last = s.last := rfl
@[simp] theorem enterHandler_now (m : Message) (q : List Message) (s : State) : (enterHandler m q s).now = s.now := rfl
@[simp] theorem enterHandler_rxq (m : Message) (q : List Message) (s : State) : (enterHandler m q s).rxq = q := rfl
@[simp] theorem enterHandler_rx (m : Message) (q : List Message) (s : State) : (enterHandler m q s).rx = some m := rfl
@[simp] theorem enterHandler_hostRx (m : Message) (q : List Message) (s : State) : (enterHandler m q s).hostRx = s.hostRx := rfl
@[simp] theorem enterHandler_agenda (m : Message) (q : List Message) (s : State) : (enterHandler m q s).agenda = s.agenda := rfl
@[simp] theorem enterHandler_tick (m : Message) (q : List Message) (s : State) : (enterHandler m q s).tick = s.tick := rfl

@[simp] theorem leaveHandler_cfg (s : State) : (leaveHandler s).cfg = s.cfg := rfl
@[simp] theorem leaveHandler_mem (s : State) : (leaveHandler s).mem = s.mem := rfl
@[simp] theorem leaveHandler_com (s : State) : (leaveHandler s).com = s.com := rfl
@[simp] theorem leaveHandler_seg (s : State) : (leaveHandler s).seg = s.seg := rfl
@[simp] theorem leaveHandler_pc (s : State) : (leaveHandler s).pc = s.pc := rfl
@[simp] theorem leaveHandler_last (s : State) : (leaveHandler s).last = s.last := rfl
@[simp] theorem leaveHandler_now (s : State) : (leaveHandler s).now = s.now := rfl
@[simp] theorem leaveHandler_rxq (s : State) : (leaveHandler s).rxq = s.rxq := rfl
@[simp] theorem leaveHandler_rx (s : State) : (leaveHandler s).rx = none := rfl
@[simp] theorem leaveHandler_hostRx (s : State) : (leaveHandler s).hostRx = s.hostRx := rfl
@[simp] theorem leaveHandler_agenda (s : State) : (leaveHandler s).agenda = s.agenda := rfl
@[simp] theorem leaveHandler_tick (s : State) : (leaveHandler s).tick = s.tick := rfl

@[simp] theorem clockTick_cfg (s : State) : (clockTick s).cfg = s.cfg := rfl
@[simp] theorem clockTick_mem (s : State) : (clockTick s).mem = s.mem := rfl
@[simp] theorem clockTick_com (s : State) : (clockTick s).com = s.com := rfl
@[simp] theorem clockTick_seg (s : State) : (clockTick s).seg = s.seg := rfl
@[simp] theorem clockTick_pc (s : State) : (clockTick s).pc = s.pc := rfl
@[simp] theorem clockTick_last (s : State) : (clockTick s).last = s.last := rfl
@[simp] theorem clockTick_now (s : State) : (clockTick s).now = nextNow s.cfg s.now := rfl
@[simp] theorem clockTick_rxq (s : State) : (clockTick s).rxq = s.rxq := rfl
@[simp] theorem clockTick_rx (s : State) : (clockTick s).rx = s.rx := rfl
@[simp] theorem clockTick_hostRx (s : State) : (clockTick s).hostRx = s.hostRx := rfl
@[simp] theorem clockTick_agenda (s : State) : (clockTick s).agenda = s.agenda := rfl
@[simp] theorem clockTick_tick (s : State) : (clockTick s).tick = s.tick := rfl

end Sys2Proof.Machine
end

