-- ==== Sys2Proof/Laws/Exec.lean ====
section
/-! SUPPORT. What each meaning can do, said once: if it answers a next state, its guard held and the state is the one its rule
gives. And what each event can do. -/

namespace Sys2Proof.Machine

@[simp] theorem whenEnabled_true (a : Answer) : whenEnabled true a = a := rfl

@[simp] theorem whenEnabled_false (a : Answer) : whenEnabled false a = .refused .notEnabled := rfl

/-- A guarded step commutes with every change of view `f` that its answer commutes with, if its guard is the same. -/
theorem whenEnabled_view {f : State → State} {g : Bool} {a b : Answer} (h : b = mapNext f a) :
    whenEnabled g b = mapNext f (whenEnabled g a) := by
  cases g
  · rfl
  · exact h

/-- A guarded step answers a next state only under its guard, and then its own answer. -/
theorem whenEnabled_eq_next {g : Bool} {a : Answer} {t : State} : whenEnabled g a = .next t ↔ g = true ∧ a = .next t := by
  cases g <;> simp [whenEnabled]

theorem execWr_next {idx pat : Byte} {s t : State} (h : execWr idx pat s = .next t) :
    ∃ rest, s.rx = some (idx :: pat :: rest) ∧ t = memWrite (digitIndex idx) pat (setRx (some rest) s) := by
  unfold execWr at h
  split at h
  · rename_i b0 b1 rest hrx
    obtain ⟨hg, ht⟩ := whenEnabled_eq_next.mp h
    simp only [Bool.and_eq_true, decide_eq_true_eq] at hg
    obtain ⟨rfl, rfl⟩ := hg
    exact ⟨rest, hrx, (Host.Outcome.next.inj ht).symm⟩
  · cases h

theorem execTrail_next {b : Byte} {s t : State} (h : execTrail b s = .next t) : s.rx = some [b] ∧ t = setRx (some []) s := by
  obtain ⟨hg, ht⟩ := whenEnabled_eq_next.mp h
  exact ⟨by simpa using hg, (Host.Outcome.next.inj ht).symm⟩

theorem execRd_next {s t : State} (h : execRd s = .next t) : t = answerHost s.cfg.readPlaceholder s :=
  (Host.Outcome.next.inj h).symm

theorem execRxBegin_next {s t : State} (h : execRxBegin s = .next t) :
    ∃ m q, s.rx = none ∧ s.rxq = m :: q ∧ t = enterHandler m q s := by
  unfold execRxBegin at h
  split at h
  · rename_i m q hrx hrxq
    exact ⟨m, q, hrx, hrxq, (Host.Outcome.next.inj h).symm⟩
  · cases h

theorem execRxEnd_next {s t : State} (h : execRxEnd s = .next t) : s.rx = some [] ∧ t = leaveHandler s := by
  obtain ⟨hg, ht⟩ := whenEnabled_eq_next.mp h
  exact ⟨by simpa using hg, (Host.Outcome.next.inj ht).symm⟩

theorem execGate_next {s t : State} (h : execGate s = .next t) :
    s.pc = .idle ∧ ((gateOpen s.cfg s.now s.last = true ∧ t = setPc .clear (setLast s.now s)) ∨
      (gateOpen s.cfg s.now s.last = false ∧ t = s)) := by
  obtain ⟨hg, ht⟩ := whenEnabled_eq_next.mp h
  refine ⟨by simpa using hg, ?_⟩
  have ht := (Host.Outcome.next.inj ht).symm
  split at ht
  · rename_i ho; exact .inl ⟨ho, ht⟩
  · rename_i ho; exact .inr ⟨by simpa using ho, ht⟩

theorem execDeselectAll_next {s t : State} (h : execDeselectAll s = .next t) :
    s.pc = .clear ∧ t = setPc (.sel 0) (setAllCom (levelOff s.cfg) s) := by
  obtain ⟨hg, ht⟩ := whenEnabled_eq_next.mp h
  exact ⟨by simpa using hg, (Host.Outcome.next.inj ht).symm⟩

theorem execSelect_next {i : Nat} {s t : State} (h : execSelect i s = .next t) :
    s.pc = .sel i ∧ t = setPc (.drv i 0) (setCom i (levelOn s.cfg) s) := by
  obtain ⟨hg, ht⟩ := whenEnabled_eq_next.mp h
  exact ⟨by simpa using hg, (Host.Outcome.next.inj ht).symm⟩

theorem execDrive_next {i : Nat} {k : Fin 8} {s t : State} (h : execDrive i k s = .next t) :
    s.pc = .drv i k ∧ ∃ v, memRead i s = some v ∧ t = setPc (afterDrive i k) (setSeg k (lvl s.cfg (segmentBit v k)) s) := by
  obtain ⟨hg, ht⟩ := whenEnabled_eq_next.mp h
  refine ⟨by simpa using hg, ?_⟩
  split at ht
  · rename_i v hv; exact ⟨v, hv, (Host.Outcome.next.inj ht).symm⟩
  · cases ht

theorem execDwell_next {i : Nat} {s t : State} (h : execDwell i s = .next t) : s.pc = .dwl i ∧ t = setPc (.rel i) s := by
  obtain ⟨hg, ht⟩ := whenEnabled_eq_next.mp h
  exact ⟨by simpa using hg, (Host.Outcome.next.inj ht).symm⟩

theorem execRelease_next {i : Nat} {s t : State} (h : execRelease i s = .next t) :
    s.pc = .rel i ∧
      t = setPc (afterRelease s.cfg i) (if releaseDeselects s.cfg i then setCom i (levelOff s.cfg) s else s) := by
  obtain ⟨hg, ht⟩ := whenEnabled_eq_next.mp h
  exact ⟨by simpa using hg, (Host.Outcome.next.inj ht).symm⟩

/-- `afterDrive` is one of the two rows of 41_scan_engine.md R90. -/
theorem afterDrive_cases (i : Nat) (k : Fin 8) :
    (∃ h : k.val < 7, afterDrive i k = .drv i ⟨k.val + 1, by omega⟩) ∨ (k.val = 7 ∧ afterDrive i k = .dwl i) := by
  unfold afterDrive
  split
  · rename_i h; exact .inl ⟨h, rfl⟩
  · exact .inr ⟨by omega, rfl⟩

/-- `afterRelease` is one of the two rows of 41_scan_engine.md R90. -/
theorem afterRelease_cases (c : Config) (i : Nat) :
    (i + 1 < c.digitCount ∧ afterRelease c i = .sel (i + 1)) ∨ (¬ i + 1 < c.digitCount ∧ afterRelease c i = .idle) := by
  unfold afterRelease hasNextDigit
  by_cases h : i + 1 < c.digitCount <;> simp [h]

/-- What a turn of the handler can do. -/
theorem bchTurn_next {s t : State} (h : bchTurn s = .next t) :
    (s.rx = none ∧ s.rxq = [] ∧ t = s) ∨
    (∃ m q, s.rx = none ∧ s.rxq = m :: q ∧ t = enterHandler m q s) ∨
    (∃ idx pat rest, s.rx = some (idx :: pat :: rest) ∧ t = memWrite (digitIndex idx) pat (setRx (some rest) s)) ∨
    (∃ b, s.rx = some [b] ∧ t = setRx (some []) s) ∨
    (s.rx = some [] ∧ t = leaveHandler s) := by
  unfold bchTurn bchInstr at h
  cases hrx : s.rx with
  | none =>
    cases hq : s.rxq with
    | nil => simp [hrx, hq] at h; exact .inl ⟨rfl, rfl, h.symm⟩
    | cons m q =>
      simp [hrx, hq, exec, execRxBegin] at h
      exact .inr (.inl ⟨m, q, rfl, rfl, h.symm⟩)
  | some m =>
    match m with
    | [] =>
      simp only [hrx, decodeFirst, exec] at h
      exact .inr (.inr (.inr (.inr ⟨rfl, (execRxEnd_next h).2⟩)))
    | [b] =>
      simp only [hrx, decodeFirst, exec] at h
      exact .inr (.inr (.inr (.inl ⟨b, rfl, (execTrail_next h).2⟩)))
    | idx :: pat :: rest =>
      simp only [hrx, decodeFirst, exec] at h
      obtain ⟨r, hr, ht⟩ := execWr_next h
      rw [hrx] at hr
      simp only [Option.some.injEq, List.cons.injEq, true_and] at hr
      exact .inr (.inr (.inl ⟨idx, pat, rest, rfl, hr ▸ ht⟩))

/-- What a turn of the Scan Engine can do, position by position (41_scan_engine.md R90 to R96). -/
theorem scanTurn_next {s t : State} (h : scanTurn s = .next t) :
    (s.pc = .idle ∧ gateOpen s.cfg s.now s.last = true ∧ t = setPc .clear (setLast s.now s)) ∨
    (s.pc = .idle ∧ gateOpen s.cfg s.now s.last = false ∧ t = s) ∨
    (s.pc = .clear ∧ t = setPc (.sel 0) (setAllCom (levelOff s.cfg) s)) ∨
    (∃ i, s.pc = .sel i ∧ t = setPc (.drv i 0) (setCom i (levelOn s.cfg) s)) ∨
    (∃ i k v, s.pc = .drv i k ∧ memRead i s = some v ∧
      t = setPc (afterDrive i k) (setSeg k (lvl s.cfg (segmentBit v k)) s)) ∨
    (∃ i, s.pc = .dwl i ∧ t = setPc (.rel i) s) ∨
    (∃ i, s.pc = .rel i ∧
      t = setPc (afterRelease s.cfg i) (if releaseDeselects s.cfg i then setCom i (levelOff s.cfg) s else s)) := by
  unfold scanTurn at h
  cases hpc : s.pc with
  | idle =>
    simp only [hpc, scanInstr, exec] at h
    rcases (execGate_next h).2 with ⟨ho, ht⟩ | ⟨ho, ht⟩
    · exact .inl ⟨rfl, ho, ht⟩
    · exact .inr (.inl ⟨rfl, ho, ht⟩)
  | clear =>
    simp only [hpc, scanInstr, exec] at h
    exact .inr (.inr (.inl ⟨rfl, (execDeselectAll_next h).2⟩))
  | sel i =>
    simp only [hpc, scanInstr, exec] at h
    exact .inr (.inr (.inr (.inl ⟨i, rfl, (execSelect_next h).2⟩)))
  | drv i k =>
    simp only [hpc, scanInstr, exec] at h
    obtain ⟨v, hv, ht⟩ := (execDrive_next h).2
    exact .inr (.inr (.inr (.inr (.inl ⟨i, k, v, rfl, hv, ht⟩))))
  | dwl i =>
    simp only [hpc, scanInstr, exec] at h
    exact .inr (.inr (.inr (.inr (.inr (.inl ⟨i, rfl, (execDwell_next h).2⟩)))))
  | rel i =>
    simp only [hpc, scanInstr, exec] at h
    exact .inr (.inr (.inr (.inr (.inr (.inr ⟨i, rfl, (execRelease_next h).2⟩)))))

/-- What one event can do. -/
theorem perform_next {e : Event} {s t : State} (h : perform e s = .next t) :
    t = s ∨
    (∃ dest m, e = .hostWrite dest m ∧ targetReaches s.cfg dest = true ∧ m.length ≤ s.cfg.rxCapacity ∧ t = setRxq (s.rxq ++ [m]) s) ∨
    (∃ dest, e = .hostRead dest 0 ∧ targetReaches s.cfg dest = true ∧ t = answerHost s.cfg.readPlaceholder s) ∨
    (e = .clock ∧ t = clockTick s) ∨
    (e = .bch ∧ bchTurn s = .next t) ∨
    (e = .scan ∧ scanTurn s = .next t) := by
  cases e with
  | hostWrite dest m =>
    simp only [perform, hostSend] at h
    split at h
    · rename_i hr
      split at h
      · rename_i hl; exact .inr (.inl ⟨dest, m, rfl, hr, hl, (Host.Outcome.next.inj h).symm⟩)
      · cases h
    · exact .inl (Host.Outcome.next.inj h).symm
  | hostRead dest extra =>
    simp only [perform, hostAsk] at h
    split at h
    · rename_i hr
      split at h
      · rename_i he; subst he; exact .inr (.inr (.inl ⟨dest, rfl, hr, execRd_next h⟩))
      · cases h
    · exact .inl (Host.Outcome.next.inj h).symm
  | clock => exact .inr (.inr (.inr (.inl ⟨rfl, (Host.Outcome.next.inj h).symm⟩)))
  | bch => exact .inr (.inr (.inr (.inr (.inl ⟨rfl, h⟩))))
  | scan => exact .inr (.inr (.inr (.inr (.inr ⟨rfl, h⟩))))

/-- Taking the next event off changes the agenda or the count of free events, and nothing else. -/
theorem takeTurn_state (s : State) : (∃ es, (takeTurn s).2 = setAgenda es s) ∨ (takeTurn s).2 = setTick (s.tick + 1) s := by
  unfold takeTurn
  split
  · exact .inl ⟨_, rfl⟩
  · exact .inr rfl

/-- A step is one event performed on the same machine, but for the agenda and the count of free events. -/
theorem step_eq_perform (s : State) : ∃ e es n, step s = perform e { s with agenda := es, tick := n } := by
  rcases takeTurn_state s with ⟨es, h⟩ | h
  · exact ⟨_, es, s.tick, by rw [step, h]; rfl⟩
  · exact ⟨_, s.agenda, s.tick + 1, by rw [step, h]; rfl⟩

/-- An address names this client exactly when it is its `BUS_ADDRESS` (30_encoding.md R60). -/
theorem targetReaches_iff (c : Config) (d : Target) : targetReaches c d = true ↔ targetAddress c d = c.busAddress := by
  cases d <;> simp [targetReaches, targetAddress]

end Sys2Proof.Machine
end

