-- ==== Sys2Proof/Laws/Memory.lean ====
section
/-! SUPPORT. The laws of the Digit Buffer: a read after a write, that every write keeps the canonical form, and the same for the
bounds-checked contract of 20_memory.md R41 and R42. -/

namespace Sys2Proof.Machine

theorem Memory.read_of_not_listed {d : Byte} {x : Memory} {a : Nat} (h : ∀ p ∈ x, a < p.1) : Memory.read d x a = d := by
  induction x with
  | nil => rfl
  | cons p rest ih =>
    have hp := h p (by simp)
    simp only [Memory.read]
    rw [if_neg (by omega), ih (fun q hq => h q (by simp [hq]))]

theorem Memory.wf_tail {d : Byte} {p : Host.Cell} {x : Memory} (h : Memory.wf d (p :: x)) : Memory.wf d x :=
  ⟨(List.pairwise_cons.mp h.1).2, fun q hq => h.2 q (by simp [hq])⟩

/-- Whatever a write lists was listed before, or is the address written. -/
theorem Memory.mem_write {d : Byte} {x : Memory} {a : Nat} {v : Byte} {p : Host.Cell} (h : p ∈ Memory.write d x a v) :
    p ∈ x ∨ p = (a, v) := by
  induction x with
  | nil => simp only [Memory.write] at h; split at h <;> simp_all
  | cons q rest ih =>
    simp only [Memory.write] at h
    split at h
    · split at h <;> simp_all
      tauto
    · split at h
      · split at h <;> simp_all
        tauto
      · rcases List.mem_cons.mp h with h | h
        · simp [h]
        · rcases ih h with h | h <;> simp [h]

/-- Every write keeps the canonical form. -/
theorem Memory.write_wf {d : Byte} {x : Memory} (hx : Memory.wf d x) (a : Nat) (v : Byte) :
    Memory.wf d (Memory.write d x a v) := by
  induction x with
  | nil =>
    simp only [Memory.write]
    split
    · exact hx
    · rename_i hv; exact ⟨by simp, by simpa using hv⟩
  | cons q rest ih =>
    have hq := List.pairwise_cons.mp hx.1
    have ht := Memory.wf_tail hx
    have hqd := hx.2 q (by simp)
    simp only [Memory.write]
    split
    · rename_i hlt
      split
      · exact hx
      · rename_i hv
        refine ⟨List.pairwise_cons.mpr ⟨?_, hx.1⟩, ?_⟩
        · intro p hp
          rcases List.mem_cons.mp hp with rfl | hp
          · exact hlt
          · exact Nat.lt_trans hlt (hq.1 p hp)
        · intro p hp
          rcases List.mem_cons.mp hp with rfl | hp
          · exact hv
          · exact hx.2 p hp
    · split
      · rename_i heq
        split
        · exact ht
        · rename_i hv
          refine ⟨List.pairwise_cons.mpr ⟨fun p hp => ?_, ht.1⟩, fun p hp => ?_⟩
          · exact heq ▸ hq.1 p hp
          · rcases List.mem_cons.mp hp with rfl | hp
            · exact hv
            · exact ht.2 p hp
      · rename_i hge hne
        have hw := ih ht
        refine ⟨List.pairwise_cons.mpr ⟨fun p hp => ?_, hw.1⟩, fun p hp => ?_⟩
        · rcases Memory.mem_write hp with hp | rfl
          · exact hq.1 p hp
          · simp only; omega
        · rcases List.mem_cons.mp hp with rfl | hp
          · exact hqd
          · exact hw.2 p hp

/-- A read of the address just written gives the byte written. -/
theorem Memory.read_write_same {d : Byte} {x : Memory} (hx : Memory.wf d x) (a : Nat) (v : Byte) :
    Memory.read d (Memory.write d x a v) a = v := by
  induction x with
  | nil => simp only [Memory.write]; split <;> simp_all [Memory.read]
  | cons q rest ih =>
    have hq := List.pairwise_cons.mp hx.1
    simp only [Memory.write]
    split
    · rename_i hlt
      split
      · rename_i hv
        rw [hv]
        exact Memory.read_of_not_listed fun p hp => by
          rcases List.mem_cons.mp hp with rfl | hp
          · exact hlt
          · exact Nat.lt_trans hlt (hq.1 p hp)
      · simp [Memory.read]
    · split
      · rename_i heq
        split
        · rename_i hv
          rw [hv]
          exact Memory.read_of_not_listed fun p hp => heq ▸ hq.1 p hp
        · simp [Memory.read]
      · rename_i hne
        simp only [Memory.read]
        rw [if_neg hne, ih (Memory.wf_tail hx)]

/-- A write leaves every other address alone. -/
theorem Memory.read_write_other {d : Byte} {x : Memory} {a b : Nat} (h : b ≠ a) (v : Byte) :
    Memory.read d (Memory.write d x a v) b = Memory.read d x b := by
  induction x with
  | nil => simp only [Memory.write]; split <;> simp [Memory.read, h]
  | cons q rest ih =>
    simp only [Memory.write]
    split
    · split <;> simp [Memory.read, h]
    · split
      · rename_i heq
        have : b ≠ q.1 := heq ▸ h
        split <;> simp [Memory.read, h, this]
      · simp only [Memory.read, ih]

/-- The buffer's contract keeps the canonical form. -/
theorem storeCell_wf {c : Config} {x : Memory} (hx : Memory.wf (unlisted c) x) (a : Int) (v : Byte) :
    Memory.wf (unlisted c) (storeCell c x a v) := by
  unfold storeCell
  split
  · exact Memory.write_wf hx _ v
  · exact hx

/-- The buffer's contract lists populated addresses only. -/
theorem storeCell_onBoard {c : Config} {x : Memory} (hx : ∀ p ∈ x, p.1 < c.digitCount) (a : Int) (v : Byte) :
    ∀ p ∈ storeCell c x a v, p.1 < c.digitCount := by
  unfold storeCell
  split
  · rename_i h
    intro p hp
    rcases Memory.mem_write hp with hp | rfl
    · exact hx p hp
    · simp only [inRange, Bool.and_eq_true, decide_eq_true_eq] at h
      simp only; omega
  · exact hx

theorem inRange_natCast (c : Config) (a : Nat) : inRange c (a : Int) = decide (a < c.digitCount) := by
  simp [inRange]

/-- An index off the board stores nothing (20_memory.md R41). -/
theorem storeCell_of_not_inRange {c : Config} {x : Memory} {a : Int} (h : inRange c a = false) (v : Byte) :
    storeCell c x a v = x := by
  simp [storeCell, h]

/-- A store to one index leaves what another index reads alone. -/
theorem loadCell_storeCell_other {c : Config} {x : Memory} {a b : Int} (h : b ≠ a) (v : Byte) :
    loadCell c (storeCell c x a v) b = loadCell c x b := by
  unfold loadCell storeCell
  split
  · split
    · rename_i hb ha
      simp only [inRange, Bool.and_eq_true, decide_eq_true_eq] at ha hb
      rw [Memory.read_write_other (by omega)]
    · rfl
  · rfl

/-- A store to a valid index is what the index reads next. -/
theorem loadCell_storeCell_same {c : Config} {x : Memory} (hx : Memory.wf (unlisted c) x) {a : Int} (h : inRange c a = true)
    (v : Byte) : loadCell c (storeCell c x a v) a = some v := by
  simp [loadCell, storeCell, h, Memory.read_write_same hx]

/-- A read at a valid index has a value. -/
theorem loadCell_of_lt {c : Config} {i : Nat} (h : i < c.digitCount) (x : Memory) :
    loadCell c x i = some (Memory.read (unlisted c) x i) := by
  simp [loadCell, inRange_natCast, h]

end Sys2Proof.Machine
end

