-- ==== Sys2Proof/Laws/PerInstr.lean ====
section
/-! SUPPORT. What is proved of every operation as syntax, one lemma per constructor: the width of its encoding is the number of
bits opcode_table.json gives its row. -/

namespace Sys2Proof.Laws

/-- How many bits the row's pattern has in opcode_table.json (30_encoding.md R70, R73). -/
def Encoding.tableBits : Instr → Nat
  | .wr _ _ => 16
  | .trail _ => 8
  | .rd => 0
  | .rxBegin => 0
  | .rxEnd => 0
  | .gate => 0
  | .deselectAll => 0
  | .select _ => 0
  | .drive _ _ => 0
  | .dwell _ => 0
  | .release _ => 0

/-- An operation that has an encoding is sent in as many bits as its row has. -/
def Encoding.Statement (i : Instr) : Prop := ∀ t, encode i = some t → t.bitLength = Encoding.tableBits i

theorem Encoding.wr (idx pat : Byte) : Encoding.Statement (.wr idx pat) := by
  rintro t ⟨⟩
  rfl

theorem Encoding.trail (b : Byte) : Encoding.Statement (.trail b) := by
  rintro t ⟨⟩
  rfl

theorem Encoding.rd : Encoding.Statement .rd := by
  rintro t ⟨⟩
  rfl

theorem Encoding.rxBegin : Encoding.Statement .rxBegin := by rintro t ⟨⟩

theorem Encoding.rxEnd : Encoding.Statement .rxEnd := by rintro t ⟨⟩

theorem Encoding.gate : Encoding.Statement .gate := by rintro t ⟨⟩

theorem Encoding.deselectAll : Encoding.Statement .deselectAll := by rintro t ⟨⟩

theorem Encoding.select (i : Nat) : Encoding.Statement (.select i) := by rintro t ⟨⟩

theorem Encoding.drive (i : Nat) (k : Fin 8) : Encoding.Statement (.drive i k) := by rintro t ⟨⟩

theorem Encoding.dwell (i : Nat) : Encoding.Statement (.dwell i) := by rintro t ⟨⟩

theorem Encoding.release (i : Nat) : Encoding.Statement (.release i) := by rintro t ⟨⟩

end Sys2Proof.Laws
end

