-- ==== Sys2Proof/Laws/Run.lean ====
section
/-! SUPPORT. Runs along a list of events, what one agent's turn leaves alone, whole messages, and the electrical levels. -/

namespace Sys2Proof.Machine

/-! ## Runs -/

theorem play_cons_next {e : Event} {es : List Event} {s t : State} :
    play (e :: es) s = .next t ↔ ∃ u, perform e s = .next u ∧ play es u = .next t := by
  simp only [play]
  cases perform e s <;> simp

/-- A run along two lists is a run along the first and then the second. -/
theorem play_append_next {es fs : List Event} {s t : State} :
    play (es ++ fs) s = .next t ↔ ∃ u, play es s = .next u ∧ play fs u = .next t := by
  induction es generalizing s with
  | nil => simp [play]
  | cons e es ih =>
    simp only [List.cons_append, play_cons_next, ih]
    constructor
    · rintro ⟨u, h, v, h1, h2⟩
      exact ⟨v, ⟨u, h, h1⟩, h2⟩
    · rintro ⟨v, ⟨u, h, h1⟩, h2⟩
      exact ⟨u, h, v, h1, h2⟩

/-- What every performed event keeps, every run keeps. -/
theorem play_keeps {P : State → Prop} (hP : ∀ e s t, P s → perform e s = .next t → P t) {es : List Event} {s t : State}
    (hs : P s) (h : play es s = .next t) : P t := by
  induction es generalizing s with
  | nil => exact Host.Outcome.next.inj h ▸ hs
  | cons e es ih =>
    obtain ⟨u, hu, ht⟩ := play_cons_next.mp h
    exact ih (hP _ _ _ hs hu) ht

/-! ## What a turn leaves alone -/

theorem bchTurn_frame {s t : State} (h : bchTurn s = .next t) : t = { s with mem := t.mem, rx := t.rx, rxq := t.rxq } := by
  rcases bchTurn_next h with ⟨_, _, rfl⟩ | ⟨_, _, _, _, rfl⟩ | ⟨_, _, _, _, rfl⟩ | ⟨_, _, rfl⟩ | ⟨_, rfl⟩ <;> rfl

theorem scanTurn_frame {s t : State} (h : scanTurn s = .next t) :
    t = { s with com := t.com, seg := t.seg, pc := t.pc, last := t.last } := by
  rcases scanTurn_next h with
    ⟨_, _, rfl⟩ | ⟨_, _, rfl⟩ | ⟨_, rfl⟩ | ⟨_, _, rfl⟩ | ⟨_, _, _, _, _, rfl⟩ | ⟨_, _, rfl⟩ | ⟨_, _, rfl⟩
  iterate 6 rfl
  split <;> rfl

/-! ## Whole messages -/

theorem applyMsg_append (c : Config) (x : Memory) {m : Message} (m' : Message) (h : m.length % 2 = 0) :
    applyMsg c x (m ++ m') = applyMsg c (applyMsg c x m) m' := by
  induction m using decode.induct generalizing x with
  | case1 => rfl
  | case2 => simp at h
  | case3 _ _ _ ih =>
    simp only [List.cons_append, applyMsg]
    exact ih _ (by simp only [List.length_cons] at h; omega)

theorem applyMsg_wf {c : Config} {x : Memory} (hx : Memory.wf (unlisted c) x) (m : Message) :
    Memory.wf (unlisted c) (applyMsg c x m) := by
  induction m using decode.induct generalizing x with
  | case1 => exact hx
  | case2 => exact hx
  | case3 _ _ _ ih => exact ih (storeCell_wf hx _ _)

/-! ## Levels and selection -/

theorem levelOff_ne_levelOn (c : Config) : levelOff c ≠ levelOn c := by
  unfold levelOff levelOn lvl
  cases c.commonAnodeMode <;> decide

theorem lvl_inj (c : Config) (a b : Bool) : lvl c a = lvl c b ↔ a = b := by
  unfold lvl
  cases a <;> cases b <;> cases c.commonAnodeMode <;> decide

/-- With every common line at `OFF` no digit is selected. -/
theorem noneSelected_of_allOff {s : State} (h : ∀ b ∈ s.com, b = levelOff s.cfg) : NoneSelected s := by
  intro j hj
  exact levelOff_ne_levelOn _ (h _ (List.mem_of_getElem? hj)).symm

/-- Turning one common line on, with no digit selected, selects that digit alone. -/
theorem onlySelected_setCom {s : State} {i : Nat} (h : NoneSelected s) (hi : i < s.com.length) :
    OnlySelected i (setCom i (levelOn s.cfg) s) := by
  refine ⟨by simp [selected, hi], fun j hj => ?_⟩
  by_contra hne
  exact h j (by simpa [selected, List.getElem?_set, Ne.symm hne] using hj)

end Sys2Proof.Machine
end

