-- ==== Sys2Proof/Tests/Slice0.lean ====
section
/-! SUPPORT. The model's own tests: ill-formed terms, encodings written out by hand, one-step tests whose results are the spec's
test vectors (95_test_vectors.md), and a witness for the hypotheses of every statement that has some. -/

namespace Sys2Proof.Tests

open Sys2Proof.Machine

/-! ## Helpers -/

/-- The vectors' configuration: six digits, mode 0, `0x40`, threshold 2, `HOLD_LAST_DIGIT = 0` (95_test_vectors.md,
conventions), with arbitrary values for the open parameters. -/
def cfg6 : Config where
  digitCount := 6
  commonAnodeMode := false
  busAddress := 0x20#7
  commonPin := [20, 21, 22, 23, 24, 25]
  segmentPin := [2, 3, 4, 5, 6, 7, 8, 9]
  blankPattern := 0x40#8
  refreshThresholdMs := 2
  dwellUs := 3
  busMaxClockHz := 400000
  readPlaceholder := 0xA5#8
  rxCapacity := 8
  timeBits := 32
  holdLastDigit := false

def base : State := State.resetOf cfg6 0

def unread (m : Message) : State := { base with rx := some m }

def atPc (p : Pc) : State := { base with pc := p }

/-- Digit `i` alone selected, the sequencer at `p`. -/
def lighted (i : Nat) (p : Pc) : State := { base with pc := p, com := base.com.set i true }

def seen {α : Type} (f : State → α) : Answer → Option α
  | .next t => some (f t)
  | .fault _ => none
  | .refused _ => none

/-- The cells of the buffer, `x[0]` first. -/
def cells (s : State) : List Byte := (List.range s.cfg.digitCount).map (Memory.read (unlisted s.cfg) s.mem)

def wfCheck (s : State) : Bool :=
  configValid s.cfg && decide (Memory.wf (unlisted s.cfg) s.mem) && decide (∀ p ∈ s.mem, p.1 < s.cfg.digitCount)
    && decide (s.com.length = s.cfg.digitCount) && s.pc.onBoard s.cfg.digitCount && decide (s.last < 2 ^ s.cfg.timeBits)
    && decide (s.now < 2 ^ s.cfg.timeBits) && decide (∀ m ∈ s.rxq, m.length ≤ s.cfg.rxCapacity)
    && decide (∀ m ∈ s.rx.toList, m.length ≤ s.cfg.rxCapacity)

theorem wf_of_check {s : State} (h : wfCheck s = true) : s.WF := by
  simp only [wfCheck, Bool.and_eq_true, decide_eq_true_eq] at h
  obtain ⟨⟨⟨⟨⟨⟨⟨⟨h1, h2⟩, h3⟩, h4⟩, h5⟩, h6⟩, h7⟩, h8⟩, h9⟩ := h
  exact ⟨h1, h2, h3, h4, h5, h6, h7, h8, fun m hm => h9 m (by simpa using hm)⟩

theorem base_none : NoneSelected base := noneSelected_of_allOff (by decide)

theorem lighted_only {i : Nat} {p : Pc} (h : i < 6) : OnlySelected i (lighted i p) := onlySelected_setCom base_none h

/-! ## Well-formedness: each check refuses an ill-formed term -/

theorem test_illformed_select : (Instr.select 6).wellFormed 6 = false := by decide
theorem test_illformed_drive : (Instr.drive 6 0).wellFormed 6 = false := by decide
theorem test_illformed_dwell : (Instr.dwell 255).wellFormed 6 = false := by decide
theorem test_illformed_release : (Instr.release 1).wellFormed 1 = false := by decide
theorem test_wellformed_all : ([.wr 0xFF#8 0#8, .trail 7#8, .rd, .rxBegin, .rxEnd, .gate, .deselectAll, .select 5, .drive 5 7,
    .dwell 0, .release 5] : List Instr).all (Instr.wellFormed 6) = true := by decide
theorem test_config_five_segment_pins : configValid { cfg6 with segmentPin := [2, 3, 4, 5, 6] } = false := by decide
theorem test_config_shared_pin : configValid { cfg6 with segmentPin := [2, 3, 4, 5, 6, 7, 8, 20] } = false := by decide
theorem test_config_bounds : configValid { cfg6 with dwellUs := 10 } = false ∧ configValid { cfg6 with dwellUs := 0 } = false ∧
    configValid { cfg6 with digitCount := 0, commonPin := [] } = false := by decide
theorem test_config_257_digits :
    configValid { cfg6 with digitCount := 257, commonPin := List.range' 20 257 } = false := by decide

/-! ## Encodings written out by hand (30_encoding.md R62, R66, R68; opcode_table.json) -/

/-- `iiiiiiiipppppppp` with `i = 00000001`, `p = 00000110`. -/
theorem test_word_wr : decodeTableWord 16 0b0000000100000110 = some (.wr 1#8 6#8) := by decide
/-- The highest index and pattern (2.1: every bit pattern is a pair). -/
theorem test_word_wr_ones : decodeTableWord 16 0b1111111111111111 = some (.wr 255#8 255#8) := by decide
theorem test_word_trail : decodeTableWord 8 0b00000111 = some (.trail 7#8) := by decide
theorem test_word_rd : decodeTableWord 0 0 = some .rd := by decide
theorem test_encode_wr : encode (.wr 1#8 6#8) = some (.write [1#8, 6#8]) := by decide
theorem test_encode_trail_rd : encode (.trail 5#8) = some (.write [5#8]) ∧ encode .rd = some .read := by decide
theorem test_encode_none : [Instr.rxBegin, .rxEnd, .gate, .deselectAll, .select 0, .drive 0 0, .dwell 0, .release 0].all
    (fun i => (encode i).isNone) = true := by decide
/-- 2.1, the rows of length 0, 1, 3 and 5. -/
theorem test_decode_rows : decode [] = [] ∧ decode [5#8] = [.trail 5#8] ∧
    decode [0#8, 0x3F#8, 1#8] = [.wr 0#8 0x3F#8, .trail 1#8] ∧
    decode [9#8, 0xFF#8, 2#8, 0x5B#8, 7#8] = [.wr 9#8 0xFF#8, .wr 2#8 0x5B#8, .trail 7#8] := by decide
theorem test_encode_message : encodeMessage [.wr 0#8 0x3F#8, .wr 1#8 6#8] = some [0#8, 0x3F#8, 1#8, 6#8] ∧
    encodeMessage [.trail 1#8, .wr 0#8 0#8] = none := by decide

/-! ## A placed word is the next step's instruction -/

theorem test_placed_wr : seen cells (step (base.withFetchWord 16 0x053F)) = some [0x40#8, 0x40#8, 0x40#8, 0x40#8, 0x40#8, 0x3F#8] := by decide
theorem test_placed_rd : seen State.hostRx (step (base.withFetchWord 0 0)) = some [0xA5#8] := by decide
theorem test_placed_after_reset : (seen State.rx (step (State.reset.withFetchWord 8 0x07))) = some (some []) := by decide

/-! ## One step each, against 95_test_vectors.md -/

/-- 2.2, the highest valid index. -/
theorem test_wr_last_cell : seen cells (exec (.wr 5#8 0x80#8) (unread [5#8, 0x80#8])) =
    some [0x40#8, 0x40#8, 0x40#8, 0x40#8, 0x40#8, 0x80#8] := by decide
/-- 2.2, the lowest invalid index: the pair is consumed, nothing is written. -/
theorem test_wr_first_invalid : seen (fun t => (cells t, t.rx)) (exec (.wr 6#8 1#8) (unread [6#8, 1#8, 7#8])) =
    some (List.replicate 6 0x40#8, some [7#8]) := by decide
/-- P2. -/
theorem test_trail : seen State.rx (exec (.trail 7#8) (unread [7#8])) = some (some []) := by decide
/-- 2.4. -/
theorem test_rd : seen (fun t => (t.hostRx, cells t)) (exec .rd base) = some ([0xA5#8], List.replicate 6 0x40#8) := by decide
/-- P2, the second message stays pending. -/
theorem test_rxBegin : seen (fun t => (t.rx, t.rxq)) (exec .rxBegin { base with rxq := [[9#8], [5#8, 0x80#8]] }) =
    some (some [9#8], [[5#8, 0x80#8]]) := by decide
theorem test_rxEnd : seen State.rx (exec .rxEnd (unread [])) = some none := by decide
/-- 2.6, `now = 2` is closed, `now = 3` is open. -/
theorem test_gate_strict : seen State.pc (exec .gate { base with now := 2 }) = some .idle ∧
    seen (fun t => (t.pc, t.last)) (exec .gate { base with now := 3 }) = some (.clear, 3) := by decide
/-- 2.6, open across the wrap at 32 bits and at 8 bits. -/
theorem test_gate_wrap : elapsed cfg6 1 4294967294 = 3 ∧ elapsed { cfg6 with timeBits := 8 } 1 254 = 3 := by decide
/-- 2.7, mode 1: all commons high. -/
theorem test_deselectAll_mode1 : seen (fun t => (t.com, t.pc))
    (exec .deselectAll { base with cfg := { cfg6 with commonAnodeMode := true }, com := [true, true, true, true, true, false], pc := Pc.clear }) =
    some ([true, true, true, true, true, true], .sel 0) := by decide
/-- 2.7, `SELECT 1`. -/
theorem test_select : seen (fun t => (t.com, t.pc)) (exec (.select 1) (atPc (.sel 1))) =
    some ([false, true, false, false, false, false], .drv 1 0) := by decide
/-- 2.5, `x[2] = 0x5B`, `SEG = 01100000`: `DRIVE 2, 0` gives `11100000`. -/
theorem test_drive_first :
    let s : State := { base with mem := [(2, 0x5B#8)], pc := .drv 2 0, seg := #v[false, true, true, false, false, false, false, false] }
    seen (fun t => (t.seg.toList, t.pc)) (exec (.drive 2 0) s) =
      some ([true, true, true, false, false, false, false, false], .drv 2 1) := by decide
/-- 2.5, mode 1, `0x80` lights DP alone: line 7 goes low; after line 7 comes the dwell. -/
theorem test_drive_last_mode1 :
    let s : State := { base with mem := [(5, 0x80#8)], pc := .drv 5 7, seg := Vector.replicate 8 true }
    seen (fun t => (t.seg.toList, t.pc)) (exec (.drive 5 7) { s with cfg := { cfg6 with commonAnodeMode := true } }) =
      some ([true, true, true, true, true, true, true, false], .dwl 5) := by decide
/-- 2.7. -/
theorem test_dwell : seen State.pc (exec (.dwell 3) (atPc (.dwl 3))) = some (.rel 3) := by decide
/-- 2.7, `RELEASE 3` and `RELEASE 5`. -/
theorem test_release : seen (fun t => (t.com, t.pc)) (exec (.release 3) (lighted 3 (.rel 3))) = some (List.replicate 6 false, .sel 4) ∧
    seen (fun t => (t.com, t.pc)) (exec (.release 5) (lighted 5 (.rel 5))) = some (List.replicate 6 false, .idle) := by decide
/-- 2.7, `HOLD_LAST_DIGIT = 1`. -/
theorem test_release_hold : seen (fun t => (t.com, t.pc)) (exec (.release 5)
    { lighted 5 (.rel 5) with cfg := { cfg6 with holdLastDigit := true } }) =
    some ([false, false, false, false, false, true], .idle) := by decide
/-- 2.3, a message with an index off the board, a valid pair and a trailing byte. -/
theorem test_applyMsg : cells { base with mem := applyMsg cfg6 [] [9#8, 0xFF#8, 2#8, 0x5B#8, 7#8] } =
    [0x40#8, 0x40#8, 0x5B#8, 0x40#8, 0x40#8, 0x40#8] := by decide
/-- Writing back `BLANK_PATTERN` leaves nothing listed. -/
theorem test_write_blank_unlists : storeCell cfg6 [(2, 0#8)] 2 0x40#8 = [] := by decide
theorem test_pin_levels : pinLevel 21 (lighted 1 .idle) = some true ∧ pinLevel 9 base = some false ∧ pinLevel 99 base = none := by decide

/-! ## Witnesses: the hypotheses of each statement can be met, clause by clause, at the boundaries -/

theorem test_witness_StepPerformsNextEvent :
    ({ base with agenda := [.scan, .bch] } : State).agenda = .scan :: [.bch] ∧ base.agenda = [] := by decide

theorem test_witness_StepRunsDecodedInstruction :
    ({ unread [6#8, 1#8, 7#8] with agenda := [.bch] } : State).agenda = .bch :: [] ∧ (unread [6#8, 1#8, 7#8]).rx = some [6#8, 1#8, 7#8] ∧
    decodeFirst [6#8, 1#8, 7#8] = .ok (.wr 6#8 1#8, [7#8]) ∧ decodeFirst [7#8] = .ok (.trail 7#8, []) ∧
    (unread []).rx = some [] ∧ ({ base with rxq := [[]] } : State).rxq ≠ [] ∧ base.rx = none ∧ base.rxq = [] :=
  ⟨rfl, rfl, rfl, rfl, rfl, by decide, rfl, rfl⟩

theorem test_witness_StepRunsSequencerPosition :
    ({ base with agenda := [.scan] } : State).agenda = .scan :: [] ∧ base.pc = .idle ∧ (atPc .clear).pc = .clear ∧
    (atPc (.sel 5)).pc = .sel 5 ∧ (atPc (.drv 5 7)).pc = .drv 5 7 ∧ (atPc (.dwl 5)).pc = .dwl 5 ∧ (atPc (.rel 0)).pc = .rel 0 := by decide

theorem test_witness_StepRunsReadTransaction :
    ({ base with agenda := [.hostRead .thisClient 0] } : State).agenda = [.hostRead .thisClient 0] ∧
    targetAddress cfg6 .thisClient = cfg6.busAddress ∧ targetAddress cfg6 (.address 0x20#7) = cfg6.busAddress ∧
    targetAddress cfg6 (.address 0x21#7) ≠ cfg6.busAddress := by decide

theorem test_witness_HostWriteQueuesMessage :
    ({ base with agenda := [.hostWrite .thisClient []] } : State).agenda = [.hostWrite .thisClient []] ∧
    (List.replicate 8 (0#8 : Byte)).length ≤ cfg6.rxCapacity ∧ cfg6.rxCapacity < (List.replicate 9 (0#8 : Byte)).length ∧
    targetAddress cfg6 (.address 0x7F#7) ≠ cfg6.busAddress := by decide

theorem test_witness_ClockAdvancesModuloWidth : ({ base with agenda := [.clock] } : State).agenda = .clock :: [] := by decide

theorem test_witness_WrStoresOrDropsPair :
    Memory.wf (unlisted cfg6) base.mem ∧ (unread [5#8, 0x80#8]).rx = some (5#8 :: 0x80#8 :: []) ∧ digitIndex 5#8 < cfg6.digitCount ∧
    (unread [6#8, 1#8]).rx = some (6#8 :: 1#8 :: []) ∧ cfg6.digitCount ≤ digitIndex 6#8 := by decide

theorem test_witness_TrailDiscardsByte : (unread [7#8]).rx = some [7#8] := by decide

theorem test_witness_RxBeginTakesOldestMessage :
    ({ base with rxq := [[], [1#8]] } : State).rx = none ∧ ({ base with rxq := [[], [1#8]] } : State).rxq = [] :: [[1#8]] := by decide

theorem test_witness_RxEndReturns : (unread []).rx = some [] := by decide

/-- Two reads of this client, by its own address and by name, and one of another client. -/
theorem test_witness_HostReceivesOnlyPlaceholder :
    seen State.hostRx (play [.hostRead .thisClient 0, .scan, .hostRead (.address 0x21#7) 0, .hostRead (.address 0x20#7) 0] base) =
      some [0xA5#8, 0xA5#8] ∧
    List.countP (asksThisClient cfg6) [.hostRead .thisClient 0, .scan, .hostRead (.address 0x21#7) 0, .hostRead (.address 0x20#7) 0] = 2 := by
  decide

theorem test_witness_GateOpensOrChangesNothing :
    base.pc = .idle ∧ elapsed cfg6 3 0 > cfg6.refreshThresholdMs ∧ elapsed cfg6 2 0 ≤ cfg6.refreshThresholdMs := by decide

theorem test_witness_ElapsedCrossesOneWrap :
    (4294967295 : Nat) < 2 ^ cfg6.timeBits ∧ (0 : Nat) < 2 ^ cfg6.timeBits ∧ (0 : Nat) ≤ 0 ∧ (0 : Nat) < 4294967295 := by decide

theorem test_witness_FirstSweepStartsPastThreshold : base.pc = .idle ∧ base.last = 0 ∧ base.now < 2 ^ base.cfg.timeBits := by decide

theorem test_witness_DeselectAllTurnsCommonsOff : (atPc .clear).pc = .clear := by decide

theorem test_witness_SelectTurnsOneCommonOn :
    (atPc (.sel 0)).pc = .sel 0 ∧ (atPc (.sel 5)).pc = .sel 5 ∧ 5 < (atPc (.sel 5)).com.length := by decide

theorem test_witness_DriveSetsOneSegmentLine :
    (atPc (.drv 0 6)).pc = .drv 0 6 ∧ memRead (0 : Nat) (atPc (.drv 0 6)) = some 0x40#8 ∧ (6 : Fin 8).val + 1 < 8 ∧
    (atPc (.drv 5 7)).pc = .drv 5 7 ∧ memRead (5 : Nat) (atPc (.drv 5 7)) = some 0x40#8 ∧ (7 : Fin 8).val = 7 := by decide

theorem test_witness_DwellOnlyAdvancesPc : (atPc (.dwl 5)).pc = .dwl 5 := by decide

theorem test_witness_ReleaseDeselectsDigit :
    (atPc (.rel 4)).pc = .rel 4 ∧ 4 + 1 < cfg6.digitCount ∧ (atPc (.rel 5)).pc = .rel 5 ∧ cfg6.digitCount ≤ 5 + 1 ∧
    cfg6.holdLastDigit = false ∧ ({ cfg6 with holdLastDigit := true } : Config).holdLastDigit = true := by decide

theorem test_witness_DriveOffBoardRefused : (atPc (.drv 6 0)).pc = .drv 6 0 ∧ cfg6.digitCount ≤ 6 := by decide

theorem test_witness_DisabledOperationRefused :
    enabled (.wr 0#8 0#8) base = false ∧ enabled (.trail 0#8) base = false ∧ enabled .rxBegin base = false ∧ enabled .rxEnd base = false ∧
    enabled .gate (atPc .clear) = false ∧ enabled .deselectAll base = false ∧ enabled (.select 0) base = false ∧
    enabled (.drive 0 0) base = false ∧ enabled (.dwell 0) base = false ∧ enabled (.release 0) base = false := by decide

theorem test_witness_EnabledOperationCompletes :
    base.WF ∧ enabled .gate base = true ∧ enabled .rd base = true ∧ (atPc (.drv 5 7)).WF ∧ enabled (.drive 5 7) (atPc (.drv 5 7)) = true ∧
    (unread [0xFF#8, 1#8]).WF ∧ enabled (.wr 0xFF#8 1#8) (unread [0xFF#8, 1#8]) = true :=
  ⟨wf_of_check (by decide), by decide, by decide, wf_of_check (by decide), by decide, wf_of_check (by decide), by decide⟩

theorem test_witness_EventInBoundsCompletes :
    base.WF ∧ hostInBounds cfg6 (.hostWrite .thisClient (List.replicate 8 0#8)) = true ∧
    hostInBounds cfg6 (.hostWrite .thisClient (List.replicate 9 0#8)) = false ∧ hostInBounds cfg6 (.hostRead .thisClient 0) = true ∧
    hostInBounds cfg6 .scan = true :=
  ⟨wf_of_check (by decide), by decide, by decide, by decide, by decide⟩

theorem test_witness_HandlerIgnoresScanState : isScanOp (.wr 0#8 0#8) = false ∧ isScanOp .rd = false := by decide

theorem test_witness_HandlerFrame :
    isScanOp (.wr 1#8 6#8) = false ∧ (seen cells (exec (.wr 1#8 6#8) (unread [1#8, 6#8]))).isSome = true ∧
    (seen cells (exec .rd base)).isSome = true ∧ (seen cells (exec (.trail 0#8) (unread [0#8]))).isSome = true := by decide

theorem test_witness_ScanFrame : isScanOp .gate = true ∧ (seen cells (exec .gate base)).isSome = true := by decide

theorem test_witness_AgentsWriteOnlyTheirState :
    (seen cells (perform .bch base)).isSome = true ∧ (seen cells (perform .scan base)).isSome = true ∧
    (seen cells (perform .clock base)).isSome = true ∧ (seen cells (perform (.hostWrite .thisClient []) base)).isSome = true := by decide

theorem test_witness_ConfigurationNeverChanges : (seen cells (step { base with agenda := [.scan] })).isSome = true := by decide

theorem test_witness_SegmentLineChangesOnlyByDrive :
    seen (fun t => t.seg[(6 : Fin 8)]) (step { atPc (.drv 0 6) with agenda := [.scan] }) = some true ∧
    (atPc (.drv 0 6)).seg[(6 : Fin 8)] = false := by decide

theorem test_witness_OnlyOpenGateStartsSweep :
    seen (fun t => (t.last, t.pc)) (step { base with now := 3, agenda := [.scan] }) = some (3, .clear) ∧ base.last ≠ 3 ∧ base.pc ≠ .clear := by decide

/-- The boundaries of both ranges; just outside them `test_config_bounds` and `test_config_257_digits`. -/
theorem test_witness_PowerOnRefusesInvalidConfig :
    configValid cfg6 = true ∧ configValid { cfg6 with digitCount := 7 } = false ∧
    configValid { cfg6 with digitCount := 1, commonPin := [20] } = true ∧
    configValid { cfg6 with dwellUs := 1 } = true ∧ configValid { cfg6 with dwellUs := 9 } = true := by decide

theorem test_config_256_digits : configValid { cfg6 with digitCount := 256, commonPin := List.range' 20 256 } = true := by
  have h : (List.range' 20 256 ++ cfg6.segmentPin).Nodup :=
    List.nodup_append'.mpr ⟨List.nodup_range', by decide, fun p hp hq => by simp [cfg6, List.mem_range'_1] at hp hq; omega⟩
  simp [configValid, h, show cfg6.segmentPin.length = 8 from rfl, show cfg6.dwellUs = 3 from rfl]

theorem test_witness_ResetBufferHoldsBlank : 0 < cfg6.digitCount ∧ 5 < cfg6.digitCount := by decide

theorem test_witness_ResetMeetsInvariants : configValid cfg6 = true := by decide

theorem test_witness_StepKeepsWellFormed :
    ({ unread [5#8, 0x80#8] with agenda := [.bch] } : State).WF ∧
    seen State.mem (step { unread [5#8, 0x80#8] with agenda := [.bch] }) = some [(5, 0x80#8)] :=
  ⟨wf_of_check (by decide), by decide⟩

theorem test_witness_StepKeepsSelection :
    ({ atPc (.sel 5) with agenda := [.scan] } : State).WF ∧ SelectionInv { atPc (.sel 5) with agenda := [.scan] } ∧
    seen State.pc (step { atPc (.sel 5) with agenda := [.scan] }) = some (.drv 5 0) :=
  ⟨wf_of_check (by decide), base_none, by decide⟩

theorem test_witness_NoDoubleSelect :
    configValid cfg6 = true ∧ seen State.com (play [.clock, .clock, .clock, .scan, .scan, .scan] (State.resetOf cfg6 0)) =
      some [true, false, false, false, false, false] ∧
    selected 0 (lighted 0 .idle) :=
  ⟨by decide, by decide, (lighted_only (by decide)).1⟩

theorem test_witness_DeselectPrecedesSelect :
    ({ lighted 4 (.rel 4) with agenda := [.scan] } : State).WF ∧ SelectionInv { lighted 4 (.rel 4) with agenda := [.scan] } ∧
    seen State.pc (step { lighted 4 (.rel 4) with agenda := [.scan] }) = some (.sel 5) ∧ (lighted 4 (.rel 4)).pc ≠ .sel 5 ∧
    seen State.pc (step { atPc .clear with agenda := [.scan] }) = some (.sel 0) :=
  ⟨wf_of_check (by decide), lighted_only (p := .rel 4) (by decide), by decide, by decide, by decide⟩

theorem test_witness_MemWriteContract :
    Memory.wf (unlisted cfg6) base.mem ∧ (0 : Int) ≤ 0 ∧ (5 : Int) < cfg6.digitCount ∧ (-1 : Int) < 0 ∧ (cfg6.digitCount : Int) ≤ 6 := by decide

theorem test_witness_RewriteChangesNothing :
    Memory.wf (unlisted cfg6) [(2, 0x5B#8)] ∧ memRead 2 { base with mem := [(2, 0x5B#8)] } = some 0x5B#8 ∧
    memRead 1 { base with mem := [(2, 0x5B#8)] } = some 0x40#8 := by decide

theorem test_witness_TrailingByteHasNoEffect : ([0#8, 0x3F#8] : Message).length % 2 = 0 ∧ ([] : Message).length % 2 = 0 := by decide

theorem test_witness_LaterPairWins :
    Memory.wf (unlisted cfg6) [] ∧ ([0#8, 6#8] : Message).length % 2 = 0 ∧ digitIndex 0#8 < cfg6.digitCount ∧
    ∀ p, Instr.wr 0#8 p ∉ decode [1#8, 0#8, 0#8] :=
  ⟨by decide, by decide, by decide, by intro p hp; simp [decode] at hp⟩

theorem test_witness_HandlerRunAppliesMessage :
    ({ base with rxq := [[0#8, 0x3F#8, 1#8]] } : State).rx = none ∧
    ({ base with rxq := [[0#8, 0x3F#8, 1#8]] } : State).rxq = [0#8, 0x3F#8, 1#8] :: [] := by decide

theorem test_witness_QuiescentBufferIsMessagesApplied :
    seen (fun t => (t.mem, t.rxq, t.rx, t.pc)) (play [.hostWrite .thisClient [0#8, 0x3F#8], .bch, .scan, .bch, .bch] base) =
      some ([(0, 0x3F#8)], [], none, .idle) := by decide

theorem test_witness_HandlerReturnsWithinItsTurns :
    (unread [5#8, 0x80#8]).rx = some [5#8, 0x80#8] ∧ ([5#8, 0x80#8] : Message).length / 2 + 2 ≤ List.count Event.bch [.bch, .scan, .bch, .bch] ∧
    (seen cells (play [.bch, .scan, .bch, .bch] (unread [5#8, 0x80#8]))).isSome = true := by decide

/-- A board of one digit: its sweep takes twelve turns (2.8). -/
def one : State := State.resetOf { cfg6 with digitCount := 1, commonPin := [20] } 0

theorem test_witness_SweepEndsWithinItsTurns :
    ({ one with pc := .clear } : State).WF ∧ 1 + 11 * one.cfg.digitCount ≤ List.count Event.scan (List.replicate 12 .scan) ∧
    seen State.pc (play (List.replicate 12 .scan) { one with pc := .clear }) = some .idle :=
  ⟨wf_of_check (by decide), by decide, by decide⟩

/-- Three turns in rotation. -/
def rotation (n : Nat) : Event := if n % 3 = 0 then .bch else if n % 3 = 1 then .scan else .clock

theorem rotation_scan (n : Nat) : rotation (3 * n + 1) = .scan := by
  simp [rotation, show (3 * n + 1) % 3 = 1 by omega]

/-- A stretch without a turn of `SCAN` has at most two turns, so the clock cannot outrun the gate. -/
theorem rotation_keepsPace : ClockKeepsPace cfg6 rotation := by
  intro k l h
  have hl : l < 3 := by
    by_contra hl
    refine h (List.mem_map.mpr ⟨3 * ((k + 1) / 3) + 1 - k, List.mem_range.mpr (by omega), ?_⟩)
    rw [show k + (3 * ((k + 1) / 3) + 1 - k) = 3 * ((k + 1) / 3) + 1 by omega]
    exact rotation_scan _
  have hc : (turnsFrom rotation k l).count .clock ≤ l := by
    simpa [turnsFrom] using List.count_le_length (a := Event.clock) (l := turnsFrom rotation k l)
  have hb : cfg6.refreshThresholdMs + 3 ≤ 2 ^ cfg6.timeBits := by decide
  omega

theorem test_witness_FairRunAppliesMessagesAndSweeps :
    base.WF ∧ Fair rotation ∧ (∀ n, hostInBounds base.cfg (rotation n) = true) ∧ ClockKeepsPace base.cfg rotation := by
  refine ⟨wf_of_check (by decide), fun n => ⟨⟨3 * n, by omega, ?_⟩, ⟨3 * n + 1, by omega, rotation_scan n⟩, ⟨3 * n + 2, by omega, ?_⟩⟩,
    fun n => ?_, rotation_keepsPace⟩
  · simp [rotation]
  · simp [rotation, show (3 * n + 2) % 3 = 2 by omega]
  · unfold rotation
    split
    · rfl
    · split <;> rfl

/-- `0x5B` is stored in digit 1; no line, three lines or all but the last have been driven from `0x00`. -/
theorem test_witness_TornRenderingMixesAtWrite :
    ∀ k ∈ ([0, 3, 7] : List (Fin 8)),
      (atPc (.drv 1 k)).pc = .drv 1 k ∧ memRead (1 : Nat) { atPc (.drv 1 k) with mem := [(1, 0x5B#8)] } = some 0x5B#8 ∧
      ∀ j : Fin 8, j.val < k.val → (atPc (.drv 1 k)).seg[j] = lvl cfg6 (segmentBit 0x00#8 j) := by decide

/-- One digit, at its dwell, `0x5B` stored, no segment line on: the mixture of `k = 7`, whose bit 7 is 0 in both patterns. -/
def tornDwell : State := { one with mem := [(0, 0x5B#8)], com := [true], pc := .dwl 0 }

/-- The rest of that sweep, three ticks of the clock, and the next sweep to its dwell. -/
def nextPass : List Event := [.scan, .scan, .clock, .clock, .clock] ++ List.replicate 11 .scan

/-- The last clause: the engine leaves the dwell, `0x5B` stays stored, and the next dwell shows it. -/
theorem test_witness_TornRendering_nextPass :
    (∀ n x, play (nextPass.take n) tornDwell = .next x → memRead (0 : Nat) x = some 0x5B#8) ∧
    seen State.pc (play (nextPass.take 1) tornDwell) = some (.rel 0) ∧
    seen (fun t => (t.pc, t.seg.toList)) (play nextPass tornDwell) =
      some (.dwl 0, [true, true, false, true, true, false, true, false]) := by
  refine ⟨fun n x h => ?_, by decide, by decide⟩
  have hall : ∀ n ≤ nextPass.length, seen (memRead (0 : Nat)) (play (nextPass.take n) tornDwell) = some (some 0x5B#8) := by decide
  have hn := hall (min n nextPass.length) (Nat.min_le_right _ _)
  rw [← List.take_eq_take_min, h] at hn
  exact Option.some.inj hn

theorem test_witness_StepKeepsShownPattern :
    memRead (1 : Nat) { atPc (.drv 1 0) with agenda := [.scan] } = some 0x40#8 ∧ Shows 1 0x40#8 { atPc (.drv 1 0) with agenda := [.scan] } ∧
    seen State.pc (step { atPc (.drv 1 0) with agenda := [.scan] }) = some (.drv 1 1) ∧
    Shows 1 0x00#8 { atPc (.dwl 1) with mem := [(1, 0#8)], agenda := [.scan] } ∧
    seen State.pc (step { atPc (.dwl 1) with mem := [(1, 0#8)], agenda := [.scan] }) = some (.rel 1) :=
  ⟨by decide, fun _ => by decide, by decide, fun _ => by decide, by decide⟩

theorem test_witness_UninterruptedSweepShowsBuffer :
    (atPc .clear).WF ∧ (atPc .clear).pc = .clear ∧ memRead (0 : Nat) (atPc .clear) = some 0x40#8 ∧ memRead (5 : Nat) (atPc .clear) = some 0x40#8 :=
  ⟨wf_of_check (by decide), by decide, by decide, by decide⟩

/-- Digit 0 selected, lines 0 to 6 driven from `0x40`, the last line to come. -/
def nearlyDriven : State :=
  { lighted 0 (.drv 0 7) with seg := #v[false, false, false, false, false, false, true, true] }

theorem test_witness_StoredPatternIsDisplayed :
    nearlyDriven.WF ∧ SelectionInv nearlyDriven ∧ Shows 0 0x40#8 nearlyDriven ∧
    (∀ n u, play (([.scan] : List Event).take n) nearlyDriven = .next u → memRead (0 : Nat) u = some 0x40#8) ∧
    seen State.pc (play [.scan] nearlyDriven) = some (.dwl 0) := by
  refine ⟨wf_of_check (by decide), lighted_only (p := .drv 0 7) (by decide), ?_, fun n u h => ?_, by decide⟩
  · intro _
    decide
  · cases n with
    | zero => rw [← Host.Outcome.next.inj h]; decide
    | succ n =>
      rw [List.take_succ_cons, List.take_nil] at h
      have : seen (memRead (0 : Nat)) (play [.scan] nearlyDriven) = some (some 0x40#8) := by decide
      rw [h] at this
      exact Option.some.inj this

theorem test_witness_PinsCarryTheirLatches :
    base.WF ∧ base.cfg.commonPin[5]? = some 25 ∧ base.cfg.segmentPin[(7 : Fin 8).val]? = some 9 :=
  ⟨wf_of_check (by decide), by decide, by decide⟩

theorem test_witness_EveryInterleavingIsARun : base.agenda = [] := by decide

theorem test_witness_MessageIsPairsThenTrailingByte :
    ([9#8, 0xFF#8, 7#8] : Message)[2 * 0]? = some 9#8 ∧ ([9#8, 0xFF#8, 7#8] : Message)[2 * 0 + 1]? = some 0xFF#8 ∧
    ([9#8, 0xFF#8, 7#8] : Message).length % 2 = 1 ∧ ([9#8, 0xFF#8, 7#8] : Message)[3 - 1]? = some 7#8 := by decide

theorem test_witness_DecodeInvertsEncode :
    encode (.wr 255#8 0#8) = some (.write [255#8, 0#8]) ∧ encode .rd = some .read ∧
    encodeMessage [.wr 255#8 0#8, .trail 1#8] = some [255#8, 0#8, 1#8] := by decide

end Sys2Proof.Tests
end

section
/-! PROOFS. The buffer's contract on the whole state (20_memory.md section 2): what a read returns after `memWrite`, and what
`memWrite` leaves alone. Each rule lifts the law of `storeCell` and `loadCell` to a state. -/

namespace Sys2Proof.Machine

theorem inRange_iff {c : Config} {a : Int} : inRange c a = true ↔ 0 ≤ a ∧ a < c.digitCount := by
  simp [inRange]

theorem not_inRange_iff {c : Config} {a : Int} : inRange c a = false ↔ a < 0 ∨ (c.digitCount : Int) ≤ a := by
  rw [← Bool.not_eq_true, inRange_iff]
  omega

theorem memRead_memWrite_same {s : State} (hs : Memory.wf (unlisted s.cfg) s.mem) {a : Int} (h : inRange s.cfg a = true)
    (v : Byte) : memRead a (memWrite a v s) = some v :=
  loadCell_storeCell_same hs h v

theorem memRead_memWrite_other {a b : Int} (h : b ≠ a) (v : Byte) (s : State) :
    memRead b (memWrite a v s) = memRead b s :=
  loadCell_storeCell_other h v

/-- The frame of a write: the buffer alone may change (20_memory.md R46). -/
theorem memWrite_frame (a : Int) (v : Byte) (s : State) : memWrite a v s = { s with mem := (memWrite a v s).mem } := rfl

theorem memWrite_of_not_inRange {s : State} {a : Int} (h : inRange s.cfg a = false) (v : Byte) : memWrite a v s = s := by
  rw [memWrite, storeCell_of_not_inRange h, setMem]

/-- Settles O41: the bounds check decides which of the two clauses applies, and each is a rule about `memWrite` above. -/
theorem memWriteContract : Obligations.MemWriteContract := by
  intro s a v hs
  refine ⟨fun hlo hhi => ?onBoard, fun hoff => ?offBoard⟩
  case onBoard =>
    have hin : inRange s.cfg a = true := inRange_iff.mpr ⟨hlo, hhi⟩
    exact ⟨memRead_memWrite_same hs hin v, fun b hb => memRead_memWrite_other hb v s, memWrite_frame a v s⟩
  case offBoard => exact memWrite_of_not_inRange (not_inRange_iff.mpr hoff) v

end Sys2Proof.Machine
end

section
/-! PROOFS. The framing of a message (30_encoding.md R61): how many operations `decode` gives, and which bytes each one takes.
Every induction is on `decode`'s own recursion, which drops one pair, so two bytes of the message and one operation. -/

namespace Sys2Proof

theorem length_decode (m : Message) : (decode m).length = m.length / 2 + m.length % 2 := by
  induction m using decode.induct with
  | case1 => simp [decode]
  | case2 => simp [decode]
  | case3 _ _ _ ih =>
    simp only [decode, List.length_cons, ih]
    omega

/-- Operation `j` is the pair at bytes `2j` and `2j+1`. -/
theorem decode_getElem?_pair {m : Message} {j : Nat} {a b : Byte} (ha : m[2 * j]? = some a)
    (hb : m[2 * j + 1]? = some b) : (decode m)[j]? = some (.wr a b) := by
  induction m using decode.induct generalizing j with
  | case1 => simp at ha
  | case2 => simp at hb
  | case3 idx pat _ ih =>
    cases j with
    | zero =>
      obtain ⟨rfl, rfl⟩ : idx = a ∧ pat = b := ⟨Option.some.inj ha, Option.some.inj hb⟩
      simp [decode]
    | succ j => simpa [decode] using ih ha hb

/-- The byte left over by the pairs of an odd message is its trailing byte. -/
theorem decode_getElem?_trail {m : Message} {b : Byte} (hodd : m.length % 2 = 1) (hb : m[m.length - 1]? = some b) :
    (decode m)[m.length / 2]? = some (.trail b) := by
  induction m using decode.induct with
  | case1 => simp at hodd
  | case2 => simpa [decode] using hb
  | case3 idx pat rest ih =>
    have hrest : rest.length % 2 = 1 := by
      simp only [List.length_cons] at hodd
      omega
    have hlast : rest[rest.length - 1]? = some b := by
      obtain ⟨n, hn⟩ : ∃ n, rest.length = n + 1 := ⟨rest.length - 1, by omega⟩
      simpa [hn] using hb
    have hhalf : (idx :: pat :: rest).length / 2 = rest.length / 2 + 1 := by
      simp only [List.length_cons]
      omega
    simpa only [decode, hhalf, List.getElem?_cons_succ] using ih hrest hlast

/-- Settles O58: the count of operations, the pairs and the trailing byte, each a rule about `decode` above. -/
theorem messageIsPairsThenTrailingByte : Obligations.MessageIsPairsThenTrailingByte :=
  fun m => ⟨length_decode m, fun _ _ _ => decode_getElem?_pair, fun _ => decode_getElem?_trail⟩

end Sys2Proof
end

section
/-! PROOFS. The handler's operations on a message (40_bus_commands.md section 1): the next state of each operation whose guard
holds, once per operation, and from it the operation's effect and frame. -/

namespace Sys2Proof.Machine

/-- A pair at the front of `rx` is consumed and handed to the buffer's contract, on the board or off it. -/
theorem exec_wr_of_rx {s : State} {idx pat : Byte} {rest : Message} (h : s.rx = some (idx :: pat :: rest)) :
    exec (.wr idx pat) s = .next (memWrite (digitIndex idx) pat (setRx (some rest) s)) := by
  simp [exec, execWr, h]

theorem exec_trail_of_rx {s : State} {b : Byte} (h : s.rx = some [b]) :
    exec (.trail b) s = .next (setRx (some []) s) := by
  simp [exec, execTrail, h]

theorem exec_rxEnd_of_rx {s : State} (h : s.rx = some []) : exec .rxEnd s = .next (leaveHandler s) := by
  simp [exec, execRxEnd, h]

/-- Settles O7: `WR` is a `memWrite` on the state whose `rx` has lost the pair, so the buffer's contract decides both clauses;
reads do not see `rx`. -/
theorem wrStoresOrDropsPair : Obligations.WrStoresOrDropsPair := by
  intro s idx pat rest hmem hrx
  obtain ⟨hstore, hdrop⟩ := memWriteContract (setRx (some rest) s) (digitIndex idx) pat hmem
  rw [exec_wr_of_rx hrx]
  refine ⟨fun hlt => ?onBoard, fun hge => ?offBoard⟩
  case onBoard =>
    obtain ⟨hsame, hother, hframe⟩ := hstore (Int.natCast_nonneg _) (Int.ofNat_lt.mpr hlt)
    exact ⟨_, rfl, hsame, hother, hframe⟩
  case offBoard =>
    rw [hdrop (.inr (Int.ofNat_le.mpr hge))]
    rfl

/-- Settles O8: the guard compares `b` with the unread byte itself, so it holds for every `b`. -/
theorem trailDiscardsByte : Obligations.TrailDiscardsByte := fun _ _ => exec_trail_of_rx

/-- Settles O10: the return from the bus-receive event has nothing to restore, so only `rx` changes, to none. -/
theorem rxEndReturns : Obligations.RxEndReturns := fun _ => exec_rxEnd_of_rx

end Sys2Proof.Machine
end

section
/-! PROOFS. The Scan Engine's selection of a digit (41_scan_engine.md section 3): the next state of `SELECT`, and what it does
to the lines. -/

namespace Sys2Proof.Machine

theorem exec_select_of_pc {s : State} {i : Nat} (h : s.pc = .sel i) :
    exec (.select i) s = .next (setPc (.drv i 0) (setCom i (levelOn s.cfg) s)) := by
  simp [exec, execSelect, h]

/-- Settles O17: the next state differs by one `List.set` at `i` and the new position, so the latch read at `i` is the level
written, and a read at any other index misses the write. -/
theorem selectTurnsOneCommonOn : Obligations.SelectTurnsOneCommonOn := by
  intro s i hpc hi
  refine ⟨_, exec_select_of_pc hpc, ?selected, fun j hj => ?others, rfl⟩
  case selected =>
    rw [setPc_com, setCom_com]
    exact List.getElem?_set_self hi
  case others =>
    rw [setPc_com, setCom_com]
    exact List.getElem?_set_ne hj.symm

end Sys2Proof.Machine
end

section
/-! PROOFS. The Digit Buffer at reset (70_reset_and_hazards.md section 1): reset lists no cell, so what a cell reads is what an
unlisted cell holds, on every board and at every clock reading. -/

namespace Sys2Proof.Machine

theorem memRead_resetOf {c : Config} {i : Nat} (h : i < c.digitCount) (clock : Nat) :
    memRead i (State.resetOf c clock) = some c.blankPattern :=
  calc memRead i (State.resetOf c clock)
    _ = some (Memory.read (unlisted c) [] i) := loadCell_of_lt h []
    _ = some (unlisted c) := congrArg some (Memory.read_of_not_listed fun _ hp => nomatch hp)
    _ = some c.blankPattern := rfl

/-- Settles O33: the value of a cell at reset is `memRead_resetOf`, for every configuration; the pattern of the build
`State.reset` has is the literal `Config.build` gives. -/
theorem resetBufferHoldsBlank : Obligations.ResetBufferHoldsBlank :=
  ⟨fun _ clock _ hi => memRead_resetOf hi clock, rfl⟩

end Sys2Proof.Machine
end

section
/-! PROOFS. The operations one by one: that each is a guard and an answer (00_scope.md section 6.3), and the next state of each
operation whose guard holds (40_bus_commands.md section 1, 41_scan_engine.md section 3). -/

namespace Sys2Proof.Machine

/-- The two operations whose guard looks into `rx` or `rxq` answer by the same match as the guard; the others are written as a
guard and an answer. -/
theorem exec_eq_whenEnabled (i : Instr) (s : State) : ∃ a, exec i s = whenEnabled (enabled i s) a := by
  cases i with
  | wr idx pat =>
    match hrx : s.rx with
    | some (b0 :: b1 :: rest) => exact ⟨_, by simp only [exec, execWr, enabled, hrx]; rfl⟩
    | none | some [] | some [_] => exact ⟨.next s, by simp [exec, execWr, enabled, hrx]⟩
  | rxBegin =>
    match hrx : s.rx, hq : s.rxq with
    | none, m :: q => exact ⟨.next (enterHandler m q s), by simp [exec, execRxBegin, enabled, hrx, hq]⟩
    | none, [] | some _, _ => exact ⟨.next s, by simp [exec, execRxBegin, enabled, hrx, hq]⟩
  | rd => exact ⟨_, (whenEnabled_true _).symm⟩
  | trail | rxEnd | gate | deselectAll | select | drive | dwell | release => exact ⟨_, rfl⟩

/-- Settles O22: a guard and an answer is refused when the guard is false. -/
theorem disabledOperationRefused : Obligations.DisabledOperationRefused := by
  intro i s hoff
  obtain ⟨a, ha⟩ := exec_eq_whenEnabled i s
  rw [ha, hoff, whenEnabled_false]

theorem exec_rxBegin_of_pending {s : State} {m : Message} {q : List Message} (hrx : s.rx = none) (hq : s.rxq = m :: q) :
    exec .rxBegin s = .next (enterHandler m q s) := by
  simp [exec, execRxBegin, hrx, hq]

theorem exec_gate_of_pc {s : State} (h : s.pc = .idle) :
    exec .gate s = .next (if gateOpen s.cfg s.now s.last then setPc .clear (setLast s.now s) else s) := by
  simp [exec, execGate, h]

theorem exec_deselectAll_of_pc {s : State} (h : s.pc = .clear) :
    exec .deselectAll s = .next (setPc (.sel 0) (setAllCom (levelOff s.cfg) s)) := by
  simp [exec, execDeselectAll, h]

theorem exec_drive_of_pc {s : State} {i : Nat} {k : Fin 8} {v : Byte} (h : s.pc = .drv i k)
    (hv : memRead i s = some v) :
    exec (.drive i k) s = .next (setPc (afterDrive i k) (setSeg k (lvl s.cfg (segmentBit v k)) s)) := by
  simp [exec, execDrive, h, hv]

theorem exec_dwell_of_pc {s : State} {i : Nat} (h : s.pc = .dwl i) : exec (.dwell i) s = .next (setPc (.rel i) s) := by
  simp [exec, execDwell, h]

theorem exec_release_of_pc {s : State} {i : Nat} (h : s.pc = .rel i) :
    exec (.release i) s =
      .next { s with
        com := if releaseDeselects s.cfg i then s.com.set i (levelOff s.cfg) else s.com
        pc := afterRelease s.cfg i } := by
  simp only [exec, execRelease, h, decide_true, whenEnabled_true]
  split <;> rfl

theorem gateOpen_iff (c : Config) (now last : Nat) :
    gateOpen c now last = true ↔ elapsed c now last > c.refreshThresholdMs := by
  simp [gateOpen]

theorem hasNextDigit_iff (c : Config) (i : Nat) : hasNextDigit c i = true ↔ i + 1 < c.digitCount := by
  simp [hasNextDigit]

/-- A read has a value exactly where the bounds check passes (20_memory.md R42). -/
theorem memRead_isSome_iff (s : State) (a : Int) : (∃ v, memRead a s = some v) ↔ inRange s.cfg a = true := by
  unfold memRead loadCell
  split <;> simp [*]

/-- Settles O42: the bounds check, written out on integers. -/
theorem memReadDefinedOnBoard : Obligations.MemReadDefinedOnBoard :=
  fun s a => (memRead_isSome_iff s a).trans inRange_iff

/-- A digit on the board can be read. -/
theorem memRead_of_lt {s : State} {i : Nat} (h : i < s.cfg.digitCount) : ∃ v, memRead i s = some v :=
  ⟨_, loadCell_of_lt h s.mem⟩

/-- Settles O9: `RX_BEGIN` is the entry of the bus-receive event, which moves one message. -/
theorem rxBeginTakesOldestMessage : Obligations.RxBeginTakesOldestMessage := fun _ _ _ => exec_rxBegin_of_pending

/-- Settles O11: `RD` has no guard in the state, and its answer is one byte more for the host. -/
theorem rdAnswersPlaceholder : Obligations.RdAnswersPlaceholder := fun _ => rfl

/-- Settles O13: the gate's condition decides which branch of its answer is taken. -/
theorem gateOpensOrChangesNothing : Obligations.GateOpensOrChangesNothing := by
  intro s hpc
  rw [exec_gate_of_pc hpc]
  refine ⟨fun hopen => ?opens, fun hclosed => ?stays⟩
  case opens =>
    rw [if_pos ((gateOpen_iff ..).mpr hopen)]
    rfl
  case stays => rw [if_neg (by rw [gateOpen_iff]; omega)]

/-- Settles O16: one step writes every latch, and the position is the only other field it writes. -/
theorem deselectAllTurnsCommonsOff : Obligations.DeselectAllTurnsCommonsOff := fun _ => exec_deselectAll_of_pc

theorem seg_setSeg_same (k : Fin 8) (b : Level) (s : State) : (setSeg k b s).seg[k] = b := by simp

theorem seg_setSeg_other {j k : Fin 8} (h : j ≠ k) (b : Level) (s : State) : (setSeg k b s).seg[j] = s.seg[j] := by
  have hne : k.val ≠ j.val := fun hv => h (Fin.ext hv.symm)
  simp [hne]

/-- Settles O18: the line written is the one read back, any other line misses the write, and the position is
`afterDrive`. -/
theorem driveSetsOneSegmentLine : Obligations.DriveSetsOneSegmentLine := by
  intro s i k v hpc hv
  refine ⟨_, exec_drive_of_pc hpc hv, ?driven, fun j hj => ?others, fun h => ?next, fun h => ?last, rfl⟩
  case driven => exact seg_setSeg_same ..
  case others => exact seg_setSeg_other hj ..
  case next => exact dif_pos (by omega)
  case last => exact dif_neg (by omega)

/-- Settles O19: the dwell writes the position alone. -/
theorem dwellOnlyAdvancesPc : Obligations.DwellOnlyAdvancesPc := fun _ _ => exec_dwell_of_pc

/-- Settles O20: `hasNextDigit` decides the position, and it and `HOLD_LAST_DIGIT` decide the deselection. -/
theorem releaseDeselectsDigit : Obligations.ReleaseDeselectsDigit := by
  intro s i hpc
  rw [exec_release_of_pc hpc]
  refine ⟨fun hlt => ?next, fun hge hhold => ?lastOff, fun hge hhold => ?lastHeld⟩
  case next =>
    have hn : hasNextDigit s.cfg i = true := (hasNextDigit_iff ..).mpr hlt
    simp [afterRelease, releaseDeselects, hn]
  case lastOff =>
    have hn : hasNextDigit s.cfg i = false := by simp [hasNextDigit, hge]
    simp [afterRelease, releaseDeselects, hn, hhold]
  case lastHeld =>
    have hn : hasNextDigit s.cfg i = false := by simp [hasNextDigit, hge]
    simp [afterRelease, releaseDeselects, hn, hhold]

/-- Settles O21: off the board the bounds check fails, so the read has no value. -/
theorem driveOffBoardRefused : Obligations.DriveOffBoardRefused := by
  intro s i k hpc hoff
  have hread : memRead i s = none := by simp [memRead, loadCell, inRange_natCast, hoff]
  simp [exec, execDrive, hpc, hread]

theorem enabled_wr_iff {idx pat : Byte} {s : State} :
    enabled (.wr idx pat) s = true ↔ ∃ rest, s.rx = some (idx :: pat :: rest) := by
  match hrx : s.rx with
  | some (b0 :: b1 :: rest) => simp [enabled, hrx]
  | none | some [] | some [_] => simp [enabled, hrx]

theorem enabled_rxBegin_iff {s : State} : enabled .rxBegin s = true ↔ ∃ m q, s.rx = none ∧ s.rxq = m :: q := by
  cases hq : s.rxq <;> simp [enabled, hq]

/-- The one operation whose answer can be a refusal under its guard is `DRIVE`, and its digit is on the board where `pc` is. -/
theorem exec_completes {i : Instr} {s : State} (hs : s.pc.onBoard s.cfg.digitCount = true) (hen : enabled i s = true) :
    ∃ t, exec i s = .next t := by
  cases i with
  | wr idx pat =>
    obtain ⟨rest, hrx⟩ := enabled_wr_iff.mp hen
    exact ⟨_, exec_wr_of_rx hrx⟩
  | trail b => exact ⟨_, exec_trail_of_rx (of_decide_eq_true hen)⟩
  | rd => exact ⟨_, rfl⟩
  | rxBegin =>
    obtain ⟨m, q, hrx, hq⟩ := enabled_rxBegin_iff.mp hen
    exact ⟨_, exec_rxBegin_of_pending hrx hq⟩
  | rxEnd => exact ⟨_, exec_rxEnd_of_rx (of_decide_eq_true hen)⟩
  | gate => exact ⟨_, exec_gate_of_pc (of_decide_eq_true hen)⟩
  | deselectAll => exact ⟨_, exec_deselectAll_of_pc (of_decide_eq_true hen)⟩
  | select i => exact ⟨_, exec_select_of_pc (of_decide_eq_true hen)⟩
  | drive i k =>
    have hpc : s.pc = .drv i k := of_decide_eq_true hen
    obtain ⟨v, hv⟩ := memRead_of_lt (s := s) (i := i) (by simpa [hpc, Pc.onBoard] using hs)
    exact ⟨_, exec_drive_of_pc hpc hv⟩
  | dwell i => exact ⟨_, exec_dwell_of_pc (of_decide_eq_true hen)⟩
  | release i => exact ⟨_, exec_release_of_pc (of_decide_eq_true hen)⟩

/-- Settles O23: `exec_completes`, since `pc` is on the board in a well-formed state. -/
theorem enabledOperationCompletes : Obligations.EnabledOperationCompletes := fun _ _ hs => exec_completes hs.pcOk

end Sys2Proof.Machine
end

section
/-! PROOFS. Elapsed time (41_scan_engine.md section 6): the difference of two readings modulo the clock's width. -/

namespace Sys2Proof.Machine

/-- The remainder is never negative, so cutting it to a natural number loses nothing. -/
theorem elapsed_cast (c : Config) (now last : Nat) :
    (elapsed c now last : Int) = ((now : Int) - last) % ((2 ^ c.timeBits : Nat) : Int) :=
  Int.toNat_of_nonneg (Int.emod_nonneg _ (by positivity))

theorem elapsed_of_le {c : Config} {now last : Nat} (hnow : now < 2 ^ c.timeBits) (h : last ≤ now) :
    elapsed c now last = now - last := by
  have hdiff : ((now : Int) - last) % ((2 ^ c.timeBits : Nat) : Int) = (now : Int) - last :=
    Int.emod_eq_of_lt (by omega) (by omega)
  have := elapsed_cast c now last
  omega

theorem elapsed_of_lt {c : Config} {now last : Nat} (hlast : last < 2 ^ c.timeBits) (h : now < last) :
    elapsed c now last = now + 2 ^ c.timeBits - last := by
  have hdiff : ((now : Int) - last) % ((2 ^ c.timeBits : Nat) : Int) = (now : Int) - last + (2 ^ c.timeBits : Nat) := by
    rw [← Int.add_emod_right]
    exact Int.emod_eq_of_lt (by omega) (by omega)
  have := elapsed_cast c now last
  omega

/-- Settles O14: the clock has either not passed zero since the stamp or passed it once. -/
theorem elapsedCrossesOneWrap : Obligations.ElapsedCrossesOneWrap :=
  fun _ _ _ hnow hlast => ⟨elapsed_of_le hnow, elapsed_of_lt hlast⟩

/-- Settles O15: from a stamp of 0 the elapsed time is the clock reading itself. -/
theorem firstSweepStartsPastThreshold : Obligations.FirstSweepStartsPastThreshold := by
  intro s hpc hlast hnow
  have helapsed : elapsed s.cfg s.now s.last = s.now := by rw [hlast, elapsed_of_le hnow (Nat.zero_le _), Nat.sub_zero]
  rw [exec_gate_of_pc hpc]
  simp only [gateOpen_iff, helapsed, gt_iff_lt]
  rfl

end Sys2Proof.Machine
end

section
/-! PROOFS. What the next step is: the event the agenda names, and for each event the operation or the effect it stands for
(30_encoding.md section 1, 60_exceptions.md section 3). -/

namespace Sys2Proof.Machine

theorem step_of_agenda {s : State} {e : Event} {es : List Event} (h : s.agenda = e :: es) :
    step s = perform e { s with agenda := es } := by
  have hturn : takeTurn s = (e, setAgenda es s) := by simp only [takeTurn, h]
  rw [step, hturn]
  rfl

theorem step_of_empty_agenda {s : State} (h : s.agenda = []) :
    step s = perform (Config.freeEvent s.tick) { s with tick := s.tick + 1 } := by
  have hturn : takeTurn s = (Config.freeEvent s.tick, setTick (s.tick + 1) s) := by simp only [takeTurn, h]
  rw [step, hturn]
  rfl

/-- A step that answers is an event performed on the same machine, but for the agenda and the count of free events. -/
theorem perform_of_step {s t : State} (h : step s = .next t) :
    ∃ e es n, perform e { s with agenda := es, tick := n } = .next t := by
  obtain ⟨e, es, n, hstep⟩ := step_eq_perform s
  exact ⟨e, es, n, hstep ▸ h⟩

/-- Settles O1: whether an event is left on the agenda decides which of the two equations applies. -/
theorem stepPerformsNextEvent : Obligations.StepPerformsNextEvent :=
  fun _ => ⟨fun _ _ => step_of_agenda, step_of_empty_agenda⟩

theorem bchTurn_of_decodeFirst {s : State} {m rest : Message} {i : Instr} (hrx : s.rx = some m)
    (hm : decodeFirst m = .ok (i, rest)) : bchTurn s = exec i s := by
  simp [bchTurn, bchInstr, hrx, hm]

theorem bchTurn_of_noneUnread {s : State} (hrx : s.rx = some []) : bchTurn s = exec .rxEnd s := by
  simp [bchTurn, bchInstr, hrx, decodeFirst]

theorem bchTurn_of_pending {s : State} (hrx : s.rx = none) (hq : s.rxq ≠ []) : bchTurn s = exec .rxBegin s := by
  obtain ⟨m, q, hmq⟩ := List.exists_cons_of_ne_nil hq
  simp [bchTurn, bchInstr, hrx, hmq]

theorem bchTurn_of_idle {s : State} (hrx : s.rx = none) (hq : s.rxq = []) : bchTurn s = .next s := by
  simp [bchTurn, bchInstr, hrx, hq]

/-- Settles O2: the four states the handler can be in, each with its own equation for the turn. -/
theorem stepRunsDecodedInstruction : Obligations.StepRunsDecodedInstruction := by
  intro s es hag
  rw [step_of_agenda hag]
  exact ⟨fun _ _ _ => bchTurn_of_decodeFirst (s := setAgenda es s), bchTurn_of_noneUnread (s := setAgenda es s),
    bchTurn_of_pending (s := setAgenda es s), bchTurn_of_idle (s := setAgenda es s)⟩

/-- The Scan Engine's turn at the position `p`. -/
theorem scanTurn_of_pc {s : State} {p : Pc} (h : s.pc = p) : scanTurn s = exec (scanInstr p) s := by
  rw [scanTurn, h]

/-- Settles O3: the six positions, each with the operation `scanInstr` gives it. -/
theorem stepRunsSequencerPosition : Obligations.StepRunsSequencerPosition := by
  intro s es hag
  rw [step_of_agenda hag]
  have hturn {p : Pc} : s.pc = p → scanTurn (setAgenda es s) = exec (scanInstr p) (setAgenda es s) :=
    scanTurn_of_pc (s := setAgenda es s)
  exact ⟨hturn, hturn, fun _ => hturn, fun _ _ => hturn, fun _ => hturn, fun _ => hturn⟩

theorem perform_hostRead {s : State} {dest : Target} (h : targetReaches s.cfg dest = true) (extra : Nat) :
    perform (.hostRead dest extra) s = hostAsk extra s := if_pos h

theorem perform_hostRead_elsewhere {s : State} {dest : Target} (h : targetReaches s.cfg dest = false) (extra : Nat) :
    perform (.hostRead dest extra) s = .next s := if_neg (by simp [h])

theorem perform_hostWrite {s : State} {dest : Target} (h : targetReaches s.cfg dest = true) (m : Message) :
    perform (.hostWrite dest m) s = hostSend m s := if_pos h

theorem perform_hostWrite_elsewhere {s : State} {dest : Target} (h : targetReaches s.cfg dest = false) (m : Message) :
    perform (.hostWrite dest m) s = .next s := if_neg (by simp [h])

theorem not_targetReaches_iff (c : Config) (d : Target) :
    targetReaches c d = false ↔ targetAddress c d ≠ c.busAddress := by
  rw [← Bool.not_eq_true, targetReaches_iff]

/-- Settles O4: the address decides whether the core sees the read, and the number of bytes whether it is answered. -/
theorem stepRunsReadTransaction : Obligations.StepRunsReadTransaction := by
  intro s es dest extra hag
  rw [step_of_agenda hag]
  refine ⟨fun hd hone => ?answered, fun hd hmore => ?tooMany, fun hd => ?elsewhere⟩
  case answered => exact (perform_hostRead (s := setAgenda es s) ((targetReaches_iff ..).mpr hd) extra).trans (if_pos hone)
  case tooMany => exact (perform_hostRead (s := setAgenda es s) ((targetReaches_iff ..).mpr hd) extra).trans (if_neg hmore)
  case elsewhere => exact perform_hostRead_elsewhere (s := setAgenda es s) ((not_targetReaches_iff ..).mpr hd) extra

/-- Settles O5: the address decides whether the core sees the message, and `RX_CAPACITY` whether it is queued. -/
theorem hostWriteQueuesMessage : Obligations.HostWriteQueuesMessage := by
  intro s es dest m hag
  rw [step_of_agenda hag]
  refine ⟨fun hd hfits => ?queued, fun hd hlong => ?tooLong, fun hd => ?elsewhere⟩
  case queued => exact (perform_hostWrite (s := setAgenda es s) ((targetReaches_iff ..).mpr hd) m).trans (if_pos hfits)
  case tooLong =>
    exact (perform_hostWrite (s := setAgenda es s) ((targetReaches_iff ..).mpr hd) m).trans (if_neg (Nat.not_le.mpr hlong))
  case elsewhere => exact perform_hostWrite_elsewhere (s := setAgenda es s) ((not_targetReaches_iff ..).mpr hd) m

/-- Settles O6: the clock's turn is `clockTick` on the state whose agenda has lost the event. -/
theorem clockAdvancesModuloWidth : Obligations.ClockAdvancesModuloWidth := fun _ _ hag => step_of_agenda hag

end Sys2Proof.Machine
end

section
/-! PROOFS. What each agent leaves alone (10_state.md section 7), event by event, and the few steps that write a segment line, the
time stamp or what the host received. -/

namespace Sys2Proof.Machine

/-- Settles O28: one case for each kind of event; the turns of `BCH` and `SCAN` have frames of their own. -/
theorem agentsWriteOnlyTheirState : Obligations.AgentsWriteOnlyTheirState := by
  intro e s t h
  rcases perform_next h with
    rfl | ⟨_, _, rfl, _, _, rfl⟩ | ⟨_, rfl, _, rfl⟩ | ⟨rfl, rfl⟩ | ⟨rfl, hbch⟩ | ⟨rfl, hscan⟩
  iterate 4 simp
  · rw [bchTurn_frame hbch]
    simp
  · rw [scanTurn_frame hscan]
    simp

theorem perform_of_ne_bch {e : Event} {s t : State} (he : e ≠ .bch) (h : perform e s = .next t) :
    t.mem = s.mem ∧ t.rx = s.rx :=
  (agentsWriteOnlyTheirState e s t h).1 he

theorem perform_of_ne_scan {e : Event} {s t : State} (he : e ≠ .scan) (h : perform e s = .next t) :
    t.com = s.com ∧ t.seg = s.seg ∧ t.pc = s.pc ∧ t.last = s.last :=
  (agentsWriteOnlyTheirState e s t h).2.1 he

/-- No event writes the configuration or the schedule. -/
theorem perform_frame {e : Event} {s t : State} (h : perform e s = .next t) :
    t = { t with cfg := s.cfg, agenda := s.agenda, tick := s.tick } := by
  rcases perform_next h with rfl | ⟨_, _, _, _, _, rfl⟩ | ⟨_, _, _, rfl⟩ | ⟨_, rfl⟩ | ⟨_, hbch⟩ | ⟨_, hscan⟩
  iterate 4 rfl
  · rw [bchTurn_frame hbch]
  · rw [scanTurn_frame hscan]

theorem perform_cfg {e : Event} {s t : State} (h : perform e s = .next t) : t.cfg = s.cfg := by
  rw [perform_frame h]

theorem play_cfg {es : List Event} {s t : State} (h : play es s = .next t) : t.cfg = s.cfg :=
  play_keeps (P := fun u => u.cfg = s.cfg) (fun _ _ _ hs he => (perform_cfg he).trans hs) rfl h

theorem perform_agenda {e : Event} {s t : State} (h : perform e s = .next t) : t.agenda = s.agenda := by
  rw [perform_frame h]

/-- Settles O29: a step is an event on the same machine, and no event writes the configuration. -/
theorem configurationNeverChanges : Obligations.ConfigurationNeverChanges := by
  intro s t h
  obtain ⟨e, es, n, he⟩ := perform_of_step h
  exact (perform_cfg he :)

/-- An event that changes the engine's state is a turn of `SCAN`. -/
theorem scanTurn_of_perform {e : Event} {s t : State} (h : perform e s = .next t) :
    (t.com = s.com ∧ t.seg = s.seg ∧ t.pc = s.pc ∧ t.last = s.last) ∨ (e = .scan ∧ scanTurn s = .next t) := by
  by_cases he : e = .scan
  · subst he
    exact .inr ⟨rfl, h⟩
  · exact .inl (perform_of_ne_scan he h)

/-- Of the Scan Engine's turns only `DRIVE` writes the segment lines, and only its own. -/
theorem scanTurn_seg_changed {s t : State} {k : Fin 8} (h : scanTurn s = .next t) (hk : t.seg[k] ≠ s.seg[k]) :
    ∃ i v, s.pc = .drv i k ∧ memRead i s = some v ∧ t.seg[k] = lvl s.cfg (segmentBit v k) := by
  rcases scanTurn_next h with
    ⟨_, _, rfl⟩ | ⟨_, _, rfl⟩ | ⟨_, rfl⟩ | ⟨_, _, rfl⟩ | ⟨i, k', v, hpc, hv, rfl⟩ | ⟨_, _, rfl⟩ | ⟨_, _, rfl⟩
  iterate 4 exact absurd rfl hk
  · by_cases hkk : k = k'
    · subst hkk
      exact ⟨i, v, hpc, hv, seg_setSeg_same ..⟩
    · exact absurd (seg_setSeg_other hkk _ s) hk
  · exact absurd rfl hk
  · exact absurd (by split <;> rfl) hk

/-- Settles O30: only a turn of `SCAN` writes a line, and of those only the `DRIVE` of that line. -/
theorem segmentLineChangesOnlyByDrive : Obligations.SegmentLineChangesOnlyByDrive := by
  intro s t k h hk
  obtain ⟨e, es, n, he⟩ := perform_of_step h
  rcases scanTurn_of_perform he with ⟨_, hseg, _, _⟩ | ⟨_, hscan⟩
  · exact absurd (by rw [hseg]) hk
  · exact (scanTurn_seg_changed hscan hk :)

/-- After a `DRIVE` the sequencer is in the drive or at the dwell of the same digit. -/
theorem afterDrive_ne {i : Nat} {k : Fin 8} {p : Pc} (hdrv : ∀ j, p ≠ .drv i j) (hdwl : p ≠ .dwl i) :
    afterDrive i k ≠ p := by
  rcases afterDrive_cases i k with ⟨_, h⟩ | ⟨_, h⟩ <;> rw [h]
  · exact (hdrv _).symm
  · exact hdwl.symm

/-- After a `RELEASE` the sequencer is at the selection of the next digit or idle. -/
theorem afterRelease_ne {c : Config} {i : Nat} {p : Pc} (hsel : p ≠ .sel (i + 1)) (hidle : p ≠ .idle) :
    afterRelease c i ≠ p := by
  rcases afterRelease_cases c i with ⟨_, h⟩ | ⟨_, h⟩ <;> rw [h]
  · exact hsel.symm
  · exact hidle.symm

/-- Of the Scan Engine's turns only an open gate writes the time stamp or enters `CLEAR`. -/
theorem scanTurn_starts_sweep {s t : State} (h : scanTurn s = .next t)
    (hstart : t.last ≠ s.last ∨ (t.pc = .clear ∧ s.pc ≠ .clear)) :
    s.pc = .idle ∧ gateOpen s.cfg s.now s.last = true ∧ t = setPc .clear (setLast s.now s) := by
  rcases scanTurn_next h with
    hopen | ⟨_, _, rfl⟩ | ⟨_, rfl⟩ | ⟨_, _, rfl⟩ | ⟨_, _, _, _, _, rfl⟩ | ⟨_, _, rfl⟩ | ⟨i, _, rfl⟩
  · exact hopen
  iterate 3 simp at hstart
  · simp [afterDrive_ne] at hstart
  · simp at hstart
  · split at hstart <;> simp [afterRelease_ne] at hstart

/-- Settles O31: only a turn of `SCAN` writes `last` or `pc`, and of those only the open gate's does what is asked. -/
theorem onlyOpenGateStartsSweep : Obligations.OnlyOpenGateStartsSweep := by
  intro s t h hstart
  obtain ⟨e, es, n, he⟩ := perform_of_step h
  rcases scanTurn_of_perform he with ⟨_, _, hpc, hlast⟩ | ⟨_, hscan⟩
  · rcases hstart with hne | ⟨hclear, hne⟩
    · exact absurd hlast hne
    · exact absurd (hpc ▸ hclear) hne
  · obtain ⟨hidle, hopen, rfl⟩ := scanTurn_starts_sweep hscan hstart
    exact ⟨hidle, (gateOpen_iff ..).mp hopen, rfl, rfl⟩

/-- One event gives the host one placeholder if it is a read of this client, and nothing otherwise. -/
theorem perform_hostRx {e : Event} {s t : State} (h : perform e s = .next t) :
    t.hostRx = s.hostRx ++ List.replicate ([e].countP (asksThisClient s.cfg)) s.cfg.readPlaceholder := by
  cases e with
  | hostRead dest extra =>
    cases hd : targetReaches s.cfg dest with
    | true =>
      rw [perform_hostRead hd, hostAsk] at h
      split at h
      · rw [execRd_next h]
        simp [asksThisClient, hd]
      · cases h
    | false =>
      rw [perform_hostRead_elsewhere hd] at h
      cases h
      simp [asksThisClient, hd]
  | hostWrite | clock | bch | scan =>
    obtain ⟨_, _, _, _, hkept⟩ := agentsWriteOnlyTheirState _ s t h
    simp [asksThisClient, hkept]

/-- Settles O12: by induction on the events, one event at a time. -/
theorem hostReceivesOnlyPlaceholder : Obligations.HostReceivesOnlyPlaceholder := by
  intro es
  induction es with
  | nil =>
    intro s t h
    cases h
    simp
  | cons e es ih =>
    intro s t h
    obtain ⟨u, hu, ht⟩ := play_cons_next.mp h
    rw [ih u t ht, perform_hostRx hu, perform_cfg hu, List.append_assoc, List.replicate_append_replicate,
      ← List.countP_append, List.singleton_append]

end Sys2Proof.Machine
end

section
/-! PROOFS. Well-formed states (10_state.md section 7): one rule for each field update, each asking for what the new value must
meet; from them, that every event and every step keeps a state well formed, and that in such a state every event within
bounds completes. -/

namespace Sys2Proof.Machine

theorem wf_setPc {s : State} (h : s.WF) {p : Pc} (hp : p.onBoard s.cfg.digitCount = true) : (setPc p s).WF :=
  { h with pcOk := hp }

theorem wf_setCom {s : State} (h : s.WF) (i : Nat) (b : Level) : (setCom i b s).WF :=
  { h with comOk := by simpa using h.comOk }

theorem wf_setAllCom {s : State} (h : s.WF) (b : Level) : (setAllCom b s).WF :=
  { h with comOk := List.length_replicate }

theorem wf_setSeg {s : State} (h : s.WF) (k : Fin 8) (b : Level) : (setSeg k b s).WF := { h with }

theorem wf_setLast {s : State} (h : s.WF) {t : Nat} (ht : t < 2 ^ s.cfg.timeBits) : (setLast t s).WF :=
  { h with lastOk := ht }

theorem wf_setRx {s : State} (h : s.WF) {r : Option Message} (hr : ∀ m ∈ r, m.length ≤ s.cfg.rxCapacity) : (setRx r s).WF :=
  { h with rxOk := hr }

theorem wf_setRxq {s : State} (h : s.WF) {q : List Message} (hq : ∀ m ∈ q, m.length ≤ s.cfg.rxCapacity) : (setRxq q s).WF :=
  { h with rxqOk := hq }

theorem wf_memWrite {s : State} (h : s.WF) (a : Int) (v : Byte) : (memWrite a v s).WF :=
  { h with memOk := storeCell_wf h.memOk a v, memOnBoard := storeCell_onBoard h.memOnBoard a v }

theorem wf_answerHost {s : State} (h : s.WF) (b : Byte) : (answerHost b s).WF := { h with }

theorem wf_clockTick {s : State} (h : s.WF) : (clockTick s).WF := { h with nowOk := Nat.mod_lt _ (Nat.two_pow_pos _) }

theorem wf_schedule {s : State} (h : s.WF) (es : List Event) (n : Nat) : State.WF { s with agenda := es, tick := n } :=
  { h with }

theorem afterDrive_onBoard {n i : Nat} {k : Fin 8} (h : i < n) : (afterDrive i k).onBoard n = true := by
  rcases afterDrive_cases i k with ⟨_, hpc⟩ | ⟨_, hpc⟩ <;> simpa [hpc, Pc.onBoard] using h

theorem afterRelease_onBoard (c : Config) (i : Nat) : (afterRelease c i).onBoard c.digitCount = true := by
  rcases afterRelease_cases c i with ⟨hlt, hpc⟩ | ⟨_, hpc⟩
  · simpa [hpc, Pc.onBoard] using hlt
  · simp [hpc, Pc.onBoard]

/-- The digit count of a valid configuration is positive (00_scope.md R6). -/
theorem digitCount_pos {c : Config} (h : configValid c = true) : 0 < c.digitCount := by
  simp only [configValid, Bool.and_eq_true, decide_eq_true_eq] at h
  omega

theorem bchTurn_keeps_wf {s t : State} (h : s.WF) (ht : bchTurn s = .next t) : t.WF := by
  rcases bchTurn_next ht with
    ⟨_, _, rfl⟩ | ⟨m, q, _, hq, rfl⟩ | ⟨idx, pat, rest, hrx, rfl⟩ | ⟨b, _, rfl⟩ | ⟨_, rfl⟩
  · exact h
  · have hmsgs := hq ▸ h.rxqOk
    exact wf_setRxq (wf_setRx h (by simpa using hmsgs m (by simp))) fun m' hm' => hmsgs m' (by simp [hm'])
  · have hlen := h.rxOk _ hrx
    exact wf_memWrite (wf_setRx h (by simp only [List.length_cons] at hlen; simp; omega)) _ _
  · exact wf_setRx h (by simp)
  · exact wf_setRx h (by simp)

theorem scanTurn_keeps_wf {s t : State} (h : s.WF) (ht : scanTurn s = .next t) : t.WF := by
  have hpcOk := h.pcOk
  rcases scanTurn_next ht with
    ⟨_, _, rfl⟩ | ⟨_, _, rfl⟩ | ⟨_, rfl⟩ | ⟨i, hpc, rfl⟩ | ⟨i, k, v, hpc, _, rfl⟩ | ⟨i, hpc, rfl⟩ | ⟨i, _, rfl⟩
  · exact wf_setPc (wf_setLast h h.nowOk) rfl
  · exact h
  · exact wf_setPc (wf_setAllCom h _) (decide_eq_true (digitCount_pos h.cfgOk))
  · rw [hpc] at hpcOk
    exact wf_setPc (wf_setCom h _ _) hpcOk
  · rw [hpc] at hpcOk
    exact wf_setPc (wf_setSeg h _ _) (afterDrive_onBoard (of_decide_eq_true hpcOk))
  · rw [hpc] at hpcOk
    exact wf_setPc h hpcOk
  · split
    · exact wf_setPc (wf_setCom h _ _) (afterRelease_onBoard ..)
    · exact wf_setPc h (afterRelease_onBoard ..)

theorem perform_keeps_wf {e : Event} {s t : State} (h : s.WF) (ht : perform e s = .next t) : t.WF := by
  rcases perform_next ht with rfl | ⟨_, m, _, _, hfits, rfl⟩ | ⟨_, _, _, rfl⟩ | ⟨_, rfl⟩ | ⟨_, hbch⟩ | ⟨_, hscan⟩
  · exact h
  · exact wf_setRxq h fun m' hm' => by
      rcases List.mem_append.mp hm' with hm' | hm'
      · exact h.rxqOk m' hm'
      · exact List.mem_singleton.mp hm' ▸ hfits
  · exact wf_answerHost h _
  · exact wf_clockTick h
  · exact bchTurn_keeps_wf h hbch
  · exact scanTurn_keeps_wf h hscan

/-- Settles O37: a step is an event on the same machine, and every event keeps a state well formed. -/
theorem stepKeepsWellFormed : Obligations.StepKeepsWellFormed := by
  intro s t h ht
  obtain ⟨e, es, n, he⟩ := perform_of_step ht
  exact perform_keeps_wf (wf_schedule h es n) he

theorem enabled_scanInstr (s : State) : enabled (scanInstr s.pc) s = true := by
  cases h : s.pc <;> simp [scanInstr, enabled, h]

theorem enabled_bchInstr {s : State} {i : Instr} (h : bchInstr s = some i) : enabled i s = true := by
  match hrx : s.rx, hq : s.rxq with
  | none, [] => simp [bchInstr, hrx, hq] at h
  | none, m :: q =>
    obtain rfl : .rxBegin = i := by simpa [bchInstr, hrx, hq] using h
    simp [enabled, hrx, hq]
  | some [], _ =>
    obtain rfl : .rxEnd = i := by simpa [bchInstr, hrx, decodeFirst] using h
    simp [enabled, hrx]
  | some [b], _ =>
    obtain rfl : .trail b = i := by simpa [bchInstr, hrx, decodeFirst] using h
    simp [enabled, hrx]
  | some (idx :: pat :: rest), _ =>
    obtain rfl : .wr idx pat = i := by simpa [bchInstr, hrx, decodeFirst] using h
    simp [enabled, hrx]

theorem bchTurn_completes {s : State} (h : s.WF) : ∃ t, bchTurn s = .next t := by
  unfold bchTurn
  split
  · rename_i i hi
    exact exec_completes h.pcOk (enabled_bchInstr hi)
  · exact ⟨s, rfl⟩

theorem scanTurn_completes {s : State} (h : s.WF) : ∃ t, scanTurn s = .next t := exec_completes h.pcOk (enabled_scanInstr s)

/-- Settles O24: a turn runs an enabled operation, and the two refusals of the host's transactions are what `hostInBounds`
excludes. -/
theorem eventInBoundsCompletes : Obligations.EventInBoundsCompletes := by
  intro s e h hin
  cases e with
  | hostWrite dest m =>
    cases hd : targetReaches s.cfg dest with
    | true => exact ⟨_, (perform_hostWrite hd m).trans (if_pos (by simpa [hostInBounds, hd] using hin))⟩
    | false => exact ⟨s, perform_hostWrite_elsewhere hd m⟩
  | hostRead dest extra =>
    cases hd : targetReaches s.cfg dest with
    | true => exact ⟨_, (perform_hostRead hd extra).trans (if_pos (by simpa [hostInBounds, hd] using hin))⟩
    | false => exact ⟨s, perform_hostRead_elsewhere hd extra⟩
  | clock => exact ⟨_, rfl⟩
  | bch => exact bchTurn_completes h
  | scan => exact scanTurn_completes h

end Sys2Proof.Machine
end

section
/-! PROOFS. Power-on and reset (70_reset_and_hazards.md section 1): the configurations accepted, and the reset state of each. -/

namespace Sys2Proof.Machine

theorem configValid_iff (c : Config) :
    configValid c = true ↔
      (1 ≤ c.digitCount ∧ c.digitCount ≤ 256) ∧ (c.commonPin.length = c.digitCount ∧ c.segmentPin.length = 8) ∧
        (c.commonPin ++ c.segmentPin).Nodup ∧ (1 ≤ c.dwellUs ∧ c.dwellUs ≤ 9) := by
  simp only [configValid, Bool.and_eq_true, decide_eq_true_eq, and_assoc]

/-- Settles O32: `powerOn` asks `configValid`, which is the conjunction of the bounds. -/
theorem powerOnRefusesInvalidConfig : Obligations.PowerOnRefusesInvalidConfig := by
  intro c clock
  refine ⟨(configValid_iff c).symm, fun hok => ?accepted, fun hbad => ?refused⟩
  case accepted => exact if_pos hok
  case refused => exact if_neg (by simp [hbad])

theorem noneSelected_resetOf (c : Config) (clock : Nat) : NoneSelected (State.resetOf c clock) :=
  noneSelected_of_allOff fun _ hb => (List.mem_replicate.mp hb).2

/-- Settles O34: each field of the reset state is written out in `State.resetOf`. -/
theorem resetIsDarkIdleAndEmpty : Obligations.ResetIsDarkIdleAndEmpty := by
  intro c clock
  refine ⟨fun i hi => ?commons, noneSelected_resetOf c clock, fun k => ?segments, ⟨rfl, rfl, rfl⟩, rfl⟩
  case commons => simp [State.resetOf, hi]
  case segments => simp [State.resetOf]

theorem wf_resetOf {c : Config} (h : configValid c = true) (clock : Nat) : (State.resetOf c clock).WF where
  cfgOk := h
  memOk := ⟨List.Pairwise.nil, by simp [State.resetOf]⟩
  memOnBoard := by simp [State.resetOf]
  comOk := List.length_replicate
  pcOk := rfl
  lastOk := Nat.two_pow_pos _
  nowOk := Nat.mod_lt _ (Nat.two_pow_pos _)
  rxqOk := by simp [State.resetOf]
  rxOk := by simp [State.resetOf]

/-- Settles O35: with no digit selected, reset meets the invariant's first case at `IDLE`. -/
theorem resetMeetsInvariants : Obligations.ResetMeetsInvariants :=
  fun c clock h => ⟨wf_resetOf h clock, .inl (noneSelected_resetOf c clock)⟩

/-- The labels handed out are those of one permutation at the numbers 0 to 13, so no two outputs share a pin. -/
theorem build_pins_nodup : (Config.build.commonPin ++ Config.build.segmentPin).Nodup := by
  have hpins : Config.build.commonPin ++ Config.build.segmentPin = (List.range 14).map Config.openPins := rfl
  rw [hpins]
  exact List.nodup_range.map Config.openPins.injective

theorem configValid_build : configValid Config.build = true := by
  rw [configValid_iff]
  have hdwell := Config.openDwell.isLt
  exact ⟨by decide, ⟨rfl, rfl⟩, build_pins_nodup, by simp only [Config.build]; omega⟩

/-- Settles O36: the build is one of the valid configurations, so its reset state is well formed like any other's. -/
theorem buildConfigIsValid : Obligations.BuildConfigIsValid := ⟨configValid_build, wf_resetOf configValid_build _⟩

end Sys2Proof.Machine
end

section
/-! PROOFS. The selection invariant (41_scan_engine.md section 4, R99): which digits are selected at each position of the
sequencer, kept by every event. -/

namespace Sys2Proof.Machine

/-- The invariant reads the configuration, the common latches and the position only. -/
theorem selectionInv_congr {s t : State} (hcfg : t.cfg = s.cfg) (hcom : t.com = s.com) (hpc : t.pc = s.pc)
    (h : SelectionInv s) : SelectionInv t := by
  unfold SelectionInv NoneSelected OnlySelected selected at *
  rwa [hpc, hcfg, hcom]

theorem noneSelected_setCom_levelOff {s : State} {i : Nat} (h : OnlySelected i s) :
    NoneSelected (setCom i (levelOff s.cfg) s) := by
  intro j hj
  rw [selected, setCom_com, setCom_cfg, List.getElem?_set] at hj
  split at hj
  · split at hj
    · exact levelOff_ne_levelOn _ (Option.some.inj hj)
    · cases hj
  · rename_i hij
    exact hij (h.2 j hj).symm

/-- The one release that keeps its digit selected is that of the last digit under `HOLD_LAST_DIGIT`. -/
theorem releaseDeselects_eq_false_iff (c : Config) (i : Nat) :
    releaseDeselects c i = false ↔ ¬ i + 1 < c.digitCount ∧ c.holdLastDigit = true := by
  simp [releaseDeselects, hasNextDigit]

/-- A release that deselects leaves no digit selected, wherever the sequencer goes next. -/
theorem selectionInv_afterRelease {s : State} (h : NoneSelected s) (i : Nat) :
    SelectionInv (setPc (afterRelease s.cfg i) s) := by
  rcases afterRelease_cases s.cfg i with ⟨_, hpc⟩ | ⟨_, hpc⟩ <;> rw [hpc]
  · exact h
  · exact .inl h

theorem selectionInv_afterDrive {s : State} {i : Nat} (h : OnlySelected i s) (k : Fin 8) :
    SelectionInv (setPc (afterDrive i k) s) := by
  rcases afterDrive_cases i k with ⟨_, hpc⟩ | ⟨_, hpc⟩ <;> rw [hpc] <;> exact h

theorem scanTurn_keeps_selection {s t : State} (hwf : s.WF) (h : SelectionInv s) (ht : scanTurn s = .next t) :
    SelectionInv t := by
  have hpcOk := hwf.pcOk
  unfold SelectionInv at h
  rcases scanTurn_next ht with
    ⟨hpc, _, rfl⟩ | ⟨hpc, _, rfl⟩ | ⟨_, rfl⟩ | ⟨i, hpc, rfl⟩ | ⟨i, k, v, hpc, _, rfl⟩ | ⟨i, hpc, rfl⟩ | ⟨i, hpc, rfl⟩
  · rw [hpc] at h
    exact h
  · exact h
  · exact noneSelected_of_allOff fun b hb => (List.mem_replicate.mp hb).2
  · rw [hpc] at h hpcOk
    exact onlySelected_setCom h (hwf.comOk ▸ of_decide_eq_true hpcOk)
  · rw [hpc] at h
    exact selectionInv_afterDrive (s := setSeg k _ s) h k
  · rw [hpc] at h
    exact h
  · rw [hpc] at h hpcOk
    split
    · exact selectionInv_afterRelease (noneSelected_setCom_levelOff h) i
    · rename_i hkeep
      obtain ⟨hlast, hhold⟩ := (releaseDeselects_eq_false_iff ..).mp (by simpa using hkeep)
      have hi : i < s.cfg.digitCount := of_decide_eq_true hpcOk
      obtain rfl : i = s.cfg.digitCount - 1 := by omega
      rcases afterRelease_cases s.cfg (s.cfg.digitCount - 1) with ⟨hlt, _⟩ | ⟨_, hidle⟩
      · exact absurd hlt hlast
      · rw [hidle]
        exact .inr ⟨hhold, h⟩

theorem perform_keeps_selection {e : Event} {s t : State} (hwf : s.WF) (h : SelectionInv s) (ht : perform e s = .next t) :
    SelectionInv t := by
  rcases scanTurn_of_perform ht with ⟨hcom, _, hpc, _⟩ | ⟨_, hscan⟩
  · exact selectionInv_congr (perform_cfg ht) hcom hpc h
  · exact scanTurn_keeps_selection hwf h hscan

/-- Settles O38: a step is an event on the same machine, and the invariant reads neither the agenda nor the count of free
events. -/
theorem stepKeepsSelection : Obligations.StepKeepsSelection := by
  intro s t hwf h ht
  obtain ⟨e, es, n, he⟩ := perform_of_step ht
  exact perform_keeps_selection (wf_schedule hwf es n) h he

theorem selected_unique_of_selectionInv {s : State} (h : SelectionInv s) {i j : Nat} (hi : selected i s) (hj : selected j s) :
    i = j := by
  have hnone (h : NoneSelected s) : i = j := absurd hi (h i)
  have honly {d : Nat} (h : OnlySelected d s) : i = j := (h.2 i hi).trans (h.2 j hj).symm
  unfold SelectionInv at h
  split at h
  iterate 2 exact h.elim hnone fun h => honly h.2
  · exact hnone h
  iterate 3 exact honly h

/-- Settles O39: the two invariants hold at reset and every event keeps them, so they hold along every run. -/
theorem noDoubleSelect : Obligations.NoDoubleSelect := by
  intro c clock es t hc ht i j
  have hinv : t.WF ∧ SelectionInv t :=
    play_keeps (P := fun s => s.WF ∧ SelectionInv s)
      (fun _ _ _ ⟨hwf, hsel⟩ he => ⟨perform_keeps_wf hwf he, perform_keeps_selection hwf hsel he⟩)
      (resetMeetsInvariants c clock hc) ht
  exact selected_unique_of_selectionInv hinv.2

theorem eq_succ_of_afterRelease_eq_sel {c : Config} {i j : Nat} (h : afterRelease c i = .sel j) : j = i + 1 := by
  rcases afterRelease_cases c i with ⟨_, hpc⟩ | ⟨_, hpc⟩ <;> simp_all

/-- The two ways into `SEL(i)` (41_scan_engine.md R98). -/
theorem scanTurn_enters_sel {s t : State} {i : Nat} (ht : scanTurn s = .next t) (hsel : t.pc = .sel i)
    (hnew : s.pc ≠ .sel i) : (i = 0 ∧ s.pc = .clear) ∨ (∃ j, i = j + 1 ∧ s.pc = .rel j) := by
  rcases scanTurn_next ht with
    ⟨_, _, rfl⟩ | ⟨_, _, rfl⟩ | ⟨hpc, rfl⟩ | ⟨_, _, rfl⟩ | ⟨_, _, _, _, _, rfl⟩ | ⟨_, _, rfl⟩ | ⟨j, hpc, rfl⟩
  · cases hsel
  · exact absurd hsel hnew
  · exact .inl ⟨(Pc.sel.inj hsel).symm, hpc⟩
  · cases hsel
  · exact absurd hsel (afterDrive_ne (by simp) (by simp))
  · cases hsel
  · exact .inr ⟨j, eq_succ_of_afterRelease_eq_sel hsel, hpc⟩

/-- Settles O40: only a turn of `SCAN` moves the position, in one of the two ways; that no digit is selected is the invariant
at `SEL(i)`. -/
theorem deselectPrecedesSelect : Obligations.DeselectPrecedesSelect := by
  intro s t i hwf h ht hsel hnew
  have hnone := stepKeepsSelection s t hwf h ht
  rw [SelectionInv, hsel] at hnone
  refine ⟨?_, hnone⟩
  obtain ⟨e, es, n, he⟩ := perform_of_step ht
  rcases scanTurn_of_perform he with ⟨_, _, hpc, _⟩ | ⟨_, hscan⟩
  · exact absurd (hpc ▸ hsel) hnew
  · exact (scanTurn_enters_sel hscan hsel hnew :)

end Sys2Proof.Machine
end

section
/-! PROOFS. What the segment lines show during the pass over a digit (41_scan_engine.md sections 3 to 5): the lines driven so far
keep to the pattern that is stored. -/

namespace Sys2Proof.Machine

/-- The first `n` segment lines are at the levels of the pattern `p`. -/
def LinesShow (n : Nat) (p : Byte) (s : State) : Prop :=
  ∀ j : Fin 8, j.val < n → s.seg[j] = lvl s.cfg (segmentBit p j)

theorem linesShow_zero (p : Byte) (s : State) : LinesShow 0 p s := fun j hj => absurd hj (Nat.not_lt_zero j)

theorem linesShow_congr {s t : State} (hcfg : t.cfg = s.cfg) (hseg : t.seg = s.seg) {n : Nat} {p : Byte} :
    LinesShow n p t ↔ LinesShow n p s := by
  unfold LinesShow
  rw [hcfg, hseg]

theorem linesShow_eight {p : Byte} {s : State} : LinesShow 8 p s ↔ ∀ j : Fin 8, s.seg[j] = lvl s.cfg (segmentBit p j) :=
  forall_congr' fun j => ⟨fun h => h j.isLt, fun h _ => h⟩

/-- Driving the next line extends what is shown by one line. -/
theorem linesShow_setSeg {k : Fin 8} {p : Byte} {s : State} (h : LinesShow k.val p s) :
    LinesShow (k.val + 1) p (setSeg k (lvl s.cfg (segmentBit p k)) s) := by
  intro j hj
  by_cases hjk : j = k
  · subst hjk
    exact seg_setSeg_same ..
  · rw [seg_setSeg_other hjk]
    exact h j (by have : j.val ≠ k.val := fun hv => hjk (Fin.ext hv); omega)

/-- What `Shows` asks before the release: during the drive of digit `d` the lines driven so far show `p`, and at its dwell all
do. It says nothing at `REL(d)`, so it holds again as soon as a dwell that showed something else is over. -/
def DriveShows (d : Nat) (p : Byte) (s : State) : Prop :=
  (∀ k, s.pc = .drv d k → LinesShow k.val p s) ∧ (s.pc = .dwl d → LinesShow 8 p s)

theorem shows_iff (d : Nat) (p : Byte) (s : State) :
    Shows d p s ↔ DriveShows d p s ∧ (s.pc = .rel d → LinesShow 8 p s) := by
  cases hpc : s.pc with
  | idle | clear | sel => simp [Shows, DriveShows, hpc]
  | drv i k =>
    simp only [Shows, DriveShows, hpc, Pc.drv.injEq, reduceCtorEq, false_implies, and_true]
    exact ⟨fun h k' hk' => hk'.2 ▸ h hk'.1, fun h hi => h k ⟨hi, rfl⟩⟩
  | dwl i => simp [Shows, DriveShows, hpc, linesShow_eight]
  | rel i => simp [Shows, DriveShows, hpc, linesShow_eight]

theorem driveShows_congr {s t : State} (hcfg : t.cfg = s.cfg) (hseg : t.seg = s.seg) (hpc : t.pc = s.pc) {d : Nat} {p : Byte}
    (h : DriveShows d p s) : DriveShows d p t := by
  unfold DriveShows at *
  simpa only [hpc, linesShow_congr hcfg hseg] using h

/-- Nothing is asked at a position outside the drive and the dwell. -/
theorem driveShows_elsewhere {s : State} {d : Nat} (hdrv : ∀ k, s.pc ≠ .drv d k) (hdwl : s.pc ≠ .dwl d) (p : Byte) :
    DriveShows d p s := ⟨fun k h => absurd h (hdrv k), fun h => absurd h hdwl⟩

/-- A `DRIVE` of digit `i` reads the pattern stored, so it extends what digit `i` shows and leaves the other digits' passes
untouched. -/
theorem driveShows_afterDrive {s : State} {d i : Nat} {k : Fin 8} {p v : Byte} (hpc : s.pc = .drv i k)
    (hv : memRead i s = some v) (hp : memRead d s = some p) (h : DriveShows d p s) :
    DriveShows d p (setPc (afterDrive i k) (setSeg k (lvl s.cfg (segmentBit v k)) s)) := by
  have hlines (hid : i = d) : LinesShow (k.val + 1) p (setSeg k (lvl s.cfg (segmentBit v k)) s) := by
    subst hid
    obtain rfl : p = v := Option.some.inj (hp.symm.trans hv)
    exact linesShow_setSeg (h.1 k hpc)
  rcases afterDrive_cases i k with ⟨hk, hnext⟩ | ⟨hk, hnext⟩ <;> rw [hnext]
  · refine ⟨fun k' hk' => ?_, fun hdwl => nomatch hdwl⟩
    obtain ⟨hid, rfl⟩ := Pc.drv.inj hk'
    exact hlines hid
  · refine ⟨fun _ hdrv => (nomatch hdrv), fun hdwl => ?_⟩
    rw [hk] at hlines
    exact hlines (Pc.dwl.inj hdwl)

theorem scanTurn_keeps_driveShows {s t : State} {d : Nat} {p : Byte} (hp : memRead d s = some p) (h : DriveShows d p s)
    (ht : scanTurn s = .next t) : DriveShows d p t := by
  rcases scanTurn_next ht with
    ⟨_, _, rfl⟩ | ⟨_, _, rfl⟩ | ⟨_, rfl⟩ | ⟨i, _, rfl⟩ | ⟨i, k, v, hpc, hv, rfl⟩ | ⟨i, _, rfl⟩ | ⟨i, _, rfl⟩
  · exact driveShows_elsewhere (by simp) (by simp) p
  · exact h
  · exact driveShows_elsewhere (by simp) (by simp) p
  · refine ⟨fun k hk => ?_, fun hdwl => nomatch hdwl⟩
    obtain ⟨_, rfl⟩ := Pc.drv.inj hk
    exact linesShow_zero p _
  · exact driveShows_afterDrive hpc hv hp h
  · exact driveShows_elsewhere (by simp) (by simp) p
  · rcases afterRelease_cases s.cfg i with ⟨_, hnext⟩ | ⟨_, hnext⟩ <;> rw [hnext] <;>
      exact driveShows_elsewhere (by simp) (by simp) p

theorem perform_keeps_driveShows {e : Event} {s t : State} {d : Nat} {p : Byte} (hp : memRead d s = some p)
    (h : DriveShows d p s) (ht : perform e s = .next t) : DriveShows d p t := by
  rcases scanTurn_of_perform ht with ⟨_, hseg, hpc, _⟩ | ⟨_, hscan⟩
  · exact driveShows_congr (perform_cfg ht) hseg hpc h
  · exact scanTurn_keeps_driveShows hp h hscan

/-- A turn of `SCAN` that is at `REL(d)` afterwards was the `DWELL` of digit `d`. -/
theorem scanTurn_enters_rel {s t : State} {d : Nat} (ht : scanTurn s = .next t) (hrel : t.pc = .rel d) :
    s.pc = .dwl d ∧ t.seg = s.seg := by
  rcases scanTurn_next ht with
    ⟨_, _, rfl⟩ | ⟨hpc, _, rfl⟩ | ⟨_, rfl⟩ | ⟨_, _, rfl⟩ | ⟨_, _, _, _, _, rfl⟩ | ⟨i, hpc, rfl⟩ | ⟨_, _, rfl⟩
  · cases hrel
  · simp [hpc] at hrel
  iterate 2 cases hrel
  · exact absurd hrel (afterDrive_ne (by simp) (by simp))
  · exact ⟨Pc.rel.inj hrel ▸ hpc, rfl⟩
  · exact absurd hrel (afterRelease_ne (by simp) (by simp))

theorem perform_keeps_shows {e : Event} {s t : State} {d : Nat} {p : Byte} (hp : memRead d s = some p) (h : Shows d p s)
    (ht : perform e s = .next t) : Shows d p t := by
  rw [shows_iff] at h ⊢
  obtain ⟨hdrive, hrel⟩ := h
  refine ⟨perform_keeps_driveShows hp hdrive ht, fun htrel => ?_⟩
  rcases scanTurn_of_perform ht with ⟨_, hseg, hpc, _⟩ | ⟨_, hscan⟩
  · exact (linesShow_congr (perform_cfg ht) hseg).mpr (hrel (hpc ▸ htrel))
  · obtain ⟨hdwl, hseg⟩ := scanTurn_enters_rel hscan htrel
    exact (linesShow_congr (perform_cfg ht) hseg).mpr (hdrive.2 hdwl)

/-- Settles O60: a step is an event on the same machine, and neither the cells nor the lines shown depend on the agenda. -/
theorem stepKeepsShownPattern : Obligations.StepKeepsShownPattern := by
  intro s t d p hp h ht
  obtain ⟨e, es, n, he⟩ := perform_of_step ht
  exact perform_keeps_shows (s := { s with agenda := es, tick := n }) hp h he

/-- What every event keeps while `Q` holds, a run keeps along which `Q` holds at every moment. -/
theorem play_keeps_while {P Q : State → Prop} (hP : ∀ e s t, Q s → P s → perform e s = .next t → P t) {es : List Event}
    {s t : State} (hQ : ∀ n u, play (es.take n) s = .next u → Q u) (hs : P s) (h : play es s = .next t) : P t := by
  induction es generalizing s with
  | nil => exact Host.Outcome.next.inj h ▸ hs
  | cons e es ih =>
    obtain ⟨u, hu, ht⟩ := play_cons_next.mp h
    exact ih (fun n x hx => hQ (n + 1) x (play_cons_next.mpr ⟨u, hu, hx⟩)) (hP e s u (hQ 0 s rfl) hs hu) ht

/-- With digit `d` alone selected and all lines showing `p`, exactly the segments of `p` are lit, on digit `d` alone. -/
theorem lit_iff_of_onlySelected {t : State} {d : Nat} {p : Byte} (hsel : OnlySelected d t) (hlines : LinesShow 8 p t)
    (k : Fin 8) : (lit d k t ↔ segmentBit p k = true) ∧ ∀ j, j ≠ d → ¬ lit j k t := by
  have hlevel : t.seg[k] = levelOn t.cfg ↔ segmentBit p k = true := by
    rw [linesShow_eight.mp hlines k]
    exact lvl_inj ..
  exact ⟨(and_iff_right hsel.1).trans hlevel, fun j hj hlit => hj (hsel.2 j hlit.1)⟩

/-- Settles O53: the selection invariant and `Shows` are kept as long as the pattern stays stored, and at `DWL(d)` they say which
digit is selected and what the lines show. -/
theorem storedPatternIsDisplayed : Obligations.StoredPatternIsDisplayed := by
  intro es s t d p hwf hsel hshows hstored ht hdwl
  have hinv : t.WF ∧ SelectionInv t ∧ Shows d p t :=
    play_keeps_while (P := fun u => u.WF ∧ SelectionInv u ∧ Shows d p u)
      (fun _ _ _ hp ⟨huwf, husel, hushows⟩ he =>
        ⟨perform_keeps_wf huwf he, perform_keeps_selection huwf husel he, perform_keeps_shows hp hushows he⟩)
      hstored ⟨hwf, hsel, hshows⟩ ht
  obtain ⟨_, hselt, hshowst⟩ := hinv
  rw [SelectionInv, hdwl] at hselt
  obtain ⟨⟨_, hlines⟩, _⟩ := (shows_iff ..).mp hshowst
  exact lit_iff_of_onlySelected hselt (hlines hdwl)

end Sys2Proof.Machine
end

section
/-! PROOFS. The encoding (30_encoding.md sections 4 and 5): decode and encode agree, operation by operation and message by
message. -/

namespace Sys2Proof

theorem decodeTransaction_of_encode {i : Instr} {t : Transaction} (h : encode i = some t) : decodeTransaction t = [i] := by
  cases i with
  | wr | trail | rd => cases h; rfl
  | rxBegin | rxEnd | gate | deselectAll | select | drive | dwell | release => cases h

theorem decode_of_encodeMessage {ops : List Instr} {m : Message} (h : encodeMessage ops = some m) : decode m = ops := by
  induction ops using encodeMessage.induct generalizing m with
  | case1 => cases h; rfl
  | case2 b => cases h; rfl
  | case3 idx pat ops ih =>
    obtain ⟨rest, hrest, rfl⟩ := Option.map_eq_some_iff.mp h
    rw [decode, ih hrest]
  | case4 ops hnil htrail hwr =>
    unfold encodeMessage at h
    split at h <;> simp_all

theorem encodeMessage_decode (m : Message) : encodeMessage (decode m) = some m := by
  induction m using decode.induct with
  | case1 => rfl
  | case2 => rfl
  | case3 _ _ _ ih => rw [decode, encodeMessage, ih, Option.map_some]

/-- Settles O59: the operations one by one, and the two inductions over a message. -/
theorem decodeInvertsEncode : Obligations.DecodeInvertsEncode :=
  ⟨fun _ _ => decodeTransaction_of_encode, fun _ _ => decode_of_encodeMessage, encodeMessage_decode⟩

/-- Settles O57: the words are literals, so decoding them is a computation. -/
theorem handWrittenWordsDecode : Obligations.HandWrittenWordsDecode := by
  unfold Obligations.HandWrittenWordsDecode
  decide

end Sys2Proof
end

section
/-! PROOFS. Frames of the operations (40_bus_commands.md section 2, 41_scan_engine.md section 4): what each one leaves alone. -/

namespace Sys2Proof.Machine

/-- Settles O26: one case for each handler operation; only `WR` stores, and a store leaves every other address alone. -/
theorem handlerFrame : Obligations.HandlerFrame := by
  intro i s t hi ht
  cases i with
  | wr idx pat =>
    obtain ⟨rest, _, rfl⟩ := execWr_next ht
    refine ⟨rfl, fun h => absurd rfl (h idx pat), ?_, fun _ => rfl, fun _ => rfl, nofun⟩
    rintro _ _ ⟨⟩ a ha
    exact memRead_memWrite_other ha pat (setRx (some rest) s)
  | trail b =>
    obtain ⟨_, rfl⟩ := execTrail_next ht
    exact ⟨rfl, fun _ _ => rfl, nofun, fun _ => rfl, fun _ => rfl, nofun⟩
  | rd =>
    obtain rfl := execRd_next ht
    exact ⟨rfl, fun _ _ => rfl, nofun, fun _ => rfl, fun h => absurd rfl h, fun _ => rfl⟩
  | rxBegin =>
    obtain ⟨m, q, _, _, rfl⟩ := execRxBegin_next ht
    exact ⟨rfl, fun _ _ => rfl, nofun, fun h => absurd rfl h, fun _ => rfl, nofun⟩
  | rxEnd =>
    obtain ⟨_, rfl⟩ := execRxEnd_next ht
    exact ⟨rfl, fun _ _ => rfl, nofun, fun _ => rfl, fun _ => rfl, nofun⟩
  | gate | deselectAll | select | drive | dwell | release => cases hi

theorem enabled_of_exec_next {i : Instr} {s t : State} (h : exec i s = .next t) : enabled i s = true := by
  by_contra hoff
  rw [disabledOperationRefused i s (by simpa using hoff)] at h
  cases h

/-- The one enabled operation of the Scan Engine is the one `pc` names (41_scan_engine.md R90). -/
theorem eq_scanInstr_of_enabled {i : Instr} {s : State} (hi : isScanOp i = true) (hen : enabled i s = true) :
    i = scanInstr s.pc := by
  cases i with
  | gate | deselectAll | select | drive | dwell | release => rw [of_decide_eq_true hen]; rfl
  | wr | trail | rd | rxBegin | rxEnd => cases hi

theorem exec_scan_frame {i : Instr} {s t : State} (hi : isScanOp i = true) (h : exec i s = .next t) :
    t = { s with com := t.com, seg := t.seg, pc := t.pc, last := t.last } := by
  apply scanTurn_frame
  rwa [scanTurn, ← eq_scanInstr_of_enabled hi (enabled_of_exec_next h)]

end Sys2Proof.Machine
end

section
/-! PROOFS. Changes of view. A map of states that keeps what an agent's operations read, and with which their field updates
commute, commutes with every operation; if it does so for both agents and for the environment, it commutes with every
event. What holds by computation alone is not written out again for each such map. The
non-interference of the agents, the polarity symmetry and the independence of the agenda are such maps. -/

namespace Sys2Proof.Machine

/-- What the handler's operations read and write (40_bus_commands.md R75 to R80), seen through `f`. -/
structure HandlerView (f : State → State) : Prop where
  rx_eq : ∀ s, (f s).rx = s.rx := by intros; rfl
  rxq_eq : ∀ s, (f s).rxq = s.rxq := by intros; rfl
  setRx_comm : ∀ r s, setRx r (f s) = f (setRx r s) := by intros; rfl
  setRxq_comm : ∀ q s, setRxq q (f s) = f (setRxq q s) := by intros; rfl
  memWrite_comm : ∀ a v s, memWrite a v (f s) = f (memWrite a v s) := by intros; rfl
  answerHost_comm : ∀ s, answerHost (f s).cfg.readPlaceholder (f s) = f (answerHost s.cfg.readPlaceholder s) := by intros; rfl

theorem HandlerView.exec_comm {f : State → State} (h : HandlerView f) {i : Instr} (hi : isScanOp i = false) (s : State) :
    exec i (f s) = mapNext f (exec i s) := by
  cases i with
  | wr idx pat =>
    simp only [exec, execWr, h.rx_eq]
    split
    · exact whenEnabled_view (by rw [h.setRx_comm, h.memWrite_comm]; rfl)
    · rfl
  | trail b =>
    simp only [exec, execTrail, h.rx_eq]
    exact whenEnabled_view (by rw [h.setRx_comm]; rfl)
  | rd => exact congrArg Host.Outcome.next (h.answerHost_comm s)
  | rxBegin =>
    simp only [exec, execRxBegin, h.rx_eq, h.rxq_eq]
    split
    · rw [enterHandler, h.setRx_comm, h.setRxq_comm]
      rfl
    · rfl
  | rxEnd =>
    simp only [exec, execRxEnd, h.rx_eq]
    exact whenEnabled_view (by rw [leaveHandler, h.setRx_comm]; rfl)
  | gate | deselectAll | select | drive | dwell | release => cases hi

/-- What the Scan Engine's operations read and write (41_scan_engine.md R91 to R96), seen through `f`. -/
structure ScanView (f : State → State) : Prop where
  pc_eq : ∀ s, (f s).pc = s.pc := by intros; rfl
  memRead_eq : ∀ a s, memRead a (f s) = memRead a s := by intros; rfl
  gateOpen_eq : ∀ s, gateOpen (f s).cfg (f s).now (f s).last = gateOpen s.cfg s.now s.last := by intros; rfl
  afterRelease_eq : ∀ i s, afterRelease (f s).cfg i = afterRelease s.cfg i := by intros; rfl
  releaseDeselects_eq : ∀ i s, releaseDeselects (f s).cfg i = releaseDeselects s.cfg i := by intros; rfl
  setPc_comm : ∀ p s, setPc p (f s) = f (setPc p s) := by intros; rfl
  setLast_comm : ∀ s, setLast (f s).now (f s) = f (setLast s.now s) := by intros; rfl
  setAllCom_comm : ∀ b s, setAllCom (lvl (f s).cfg b) (f s) = f (setAllCom (lvl s.cfg b) s) := by intros; rfl
  setCom_comm : ∀ i b s, setCom i (lvl (f s).cfg b) (f s) = f (setCom i (lvl s.cfg b) s) := by intros; rfl
  setSeg_comm : ∀ k b s, setSeg k (lvl (f s).cfg b) (f s) = f (setSeg k (lvl s.cfg b) s) := by intros; rfl

theorem ScanView.exec_comm {f : State → State} (h : ScanView f) {i : Instr} (hi : isScanOp i = true) (s : State) :
    exec i (f s) = mapNext f (exec i s) := by
  cases i with
  | gate =>
    simp only [exec, execGate, h.pc_eq, h.gateOpen_eq]
    refine whenEnabled_view ?_
    split
    · rw [h.setLast_comm, h.setPc_comm]
      rfl
    · rfl
  | deselectAll =>
    simp only [exec, execDeselectAll, h.pc_eq]
    exact whenEnabled_view (by rw [levelOff, h.setAllCom_comm, h.setPc_comm]; rfl)
  | select i =>
    simp only [exec, execSelect, h.pc_eq]
    exact whenEnabled_view (by rw [levelOn, h.setCom_comm, h.setPc_comm]; rfl)
  | drive i k =>
    simp only [exec, execDrive, h.pc_eq, h.memRead_eq]
    refine whenEnabled_view ?_
    split
    · rw [h.setSeg_comm, h.setPc_comm]
      rfl
    · rfl
  | dwell i =>
    simp only [exec, execDwell, h.pc_eq]
    exact whenEnabled_view (by rw [h.setPc_comm]; rfl)
  | release i =>
    simp only [exec, execRelease, h.pc_eq, h.afterRelease_eq, h.releaseDeselects_eq]
    refine whenEnabled_view ?_
    split
    · rw [levelOff, h.setCom_comm, h.setPc_comm]
      rfl
    · rw [h.setPc_comm]
      rfl
  | wr | trail | rd | rxBegin | rxEnd => cases hi

/-- Settles O25: replacing the Scan Engine's fields is a view of the handler. -/
theorem handlerIgnoresScanState : Obligations.HandlerIgnoresScanState := by
  intro i s com seg pc last now hi
  have hview : HandlerView (fun t => { t with com := com, seg := seg, pc := pc, last := last, now := now }) := {}
  exact hview.exec_comm hi s

/-- Settles O27: the frame is that of a turn of `SCAN`, and replacing the handler's fields is a view of the Scan Engine. -/
theorem scanFrame : Obligations.ScanFrame := by
  intro i s rx rxq out hi
  refine ⟨fun t ht => ⟨exec_scan_frame hi ht, fun a => by rw [exec_scan_frame hi ht]; rfl⟩, ?_⟩
  have hview : ScanView (fun t => { t with rx := rx, rxq := rxq, hostRx := out }) := {}
  exact hview.exec_comm hi s

/-- A view of both agents and of the environment's steps. -/
structure MachineView (f : State → State) : Prop extends HandlerView f, ScanView f where
  targetReaches_eq : ∀ d s, targetReaches (f s).cfg d = targetReaches s.cfg d := by intros; rfl
  rxCapacity_eq : ∀ s, (f s).cfg.rxCapacity = s.cfg.rxCapacity := by intros; rfl
  clockTick_comm : ∀ s, clockTick (f s) = f (clockTick s) := by intros; rfl

section
variable {f : State → State} (h : MachineView f)
include h

theorem MachineView.exec_comm (i : Instr) (s : State) : exec i (f s) = mapNext f (exec i s) := by
  cases hi : isScanOp i with
  | true => exact h.toScanView.exec_comm hi s
  | false => exact h.toHandlerView.exec_comm hi s

theorem MachineView.hostSend_comm (m : Message) (s : State) : hostSend m (f s) = mapNext f (hostSend m s) := by
  simp only [hostSend, h.rxCapacity_eq, h.rxq_eq, h.setRxq_comm]
  split <;> rfl

theorem MachineView.hostAsk_comm (extra : Nat) (s : State) : hostAsk extra (f s) = mapNext f (hostAsk extra s) := by
  simp only [hostAsk, h.exec_comm]
  split <;> rfl

theorem MachineView.bchTurn_comm (s : State) : bchTurn (f s) = mapNext f (bchTurn s) := by
  have hinstr : bchInstr (f s) = bchInstr s := by simp only [bchInstr, h.rx_eq, h.rxq_eq]
  simp only [bchTurn, hinstr]
  split
  · exact h.exec_comm _ s
  · rfl

theorem MachineView.scanTurn_comm (s : State) : scanTurn (f s) = mapNext f (scanTurn s) := by
  rw [scanTurn, h.pc_eq]
  exact h.exec_comm _ s

theorem MachineView.perform_comm (e : Event) (s : State) : perform e (f s) = mapNext f (perform e s) := by
  cases e with
  | hostWrite dest m =>
    simp only [perform, h.targetReaches_eq, h.hostSend_comm]
    split <;> rfl
  | hostRead dest extra =>
    simp only [perform, h.targetReaches_eq, h.hostAsk_comm]
    split <;> rfl
  | clock => exact congrArg Host.Outcome.next (h.clockTick_comm s)
  | bch => exact h.bchTurn_comm s
  | scan => exact h.scanTurn_comm s

end

/-! ## Polarity (41_scan_engine.md R102) -/

theorem lvl_flipPolarity (s : State) (b : Bool) : lvl (flipPolarity s).cfg b = !lvl s.cfg b := by
  simp [lvl, flipPolarity]

/-- Only the writes of a level are not the same computation on both sides. -/
theorem flipPolarity_view : MachineView flipPolarity where
  setAllCom_comm b s := by rw [lvl_flipPolarity]; simp [setAllCom, flipPolarity]
  setCom_comm i b s := by rw [lvl_flipPolarity]; simp [setCom, flipPolarity, List.map_set]
  setSeg_comm k b s := by rw [lvl_flipPolarity]; simp [setSeg, flipPolarity, Vector.map_set]
  targetReaches_eq d _ := by cases d <;> rfl

theorem takeTurn_flipPolarity (s : State) : takeTurn (flipPolarity s) = ((takeTurn s).1, flipPolarity (takeTurn s).2) := by
  have hagenda : (flipPolarity s).agenda = s.agenda := rfl
  simp only [takeTurn, hagenda]
  split <;> rfl

theorem step_flipPolarity (s : State) : step (flipPolarity s) = mapNext flipPolarity (step s) := by
  rw [step, takeTurn_flipPolarity]
  exact flipPolarity_view.perform_comm _ _

theorem resetOf_flipPolarity (c : Config) (clock : Nat) :
    State.resetOf { c with commonAnodeMode := !c.commonAnodeMode } clock = flipPolarity (State.resetOf c clock) := by
  simp [State.resetOf, flipPolarity, levelOff, lvl]

theorem selected_flipPolarity (i : Nat) (s : State) : selected i (flipPolarity s) ↔ selected i s := by
  unfold selected
  rw [levelOn, lvl_flipPolarity]
  simp [flipPolarity, levelOn]

theorem lit_flipPolarity (i : Nat) (k : Fin 8) (s : State) : lit i k (flipPolarity s) ↔ lit i k s := by
  refine and_congr (selected_flipPolarity i s) ?_
  rw [levelOn, lvl_flipPolarity]
  simp [flipPolarity, levelOn]

/-- Settles O54: the toggle is a view of the whole machine; the reset levels and the two predicates are all written in `lvl`. -/
theorem polaritySymmetry : Obligations.PolaritySymmetry :=
  ⟨step_flipPolarity, resetOf_flipPolarity, fun s i k => ⟨selected_flipPolarity i s, lit_flipPolarity i k s⟩⟩

/-! ## The agenda (60_exceptions.md R121) -/

theorem setAgenda_view (es : List Event) : MachineView (setAgenda es) := {}

theorem setAgenda_self {s : State} {es : List Event} (h : s.agenda = es) : setAgenda es s = s := by
  subst h
  rfl

/-- Performing the first of the agenda leaves the rest of it for the machine that performed the event alone. -/
theorem step_setAgenda_cons (e : Event) (es : List Event) (s : State) :
    step (setAgenda (e :: es) s) = mapNext (setAgenda es) (perform e s) :=
  (step_of_agenda rfl).trans ((setAgenda_view es).perform_comm e s)

theorem run_setAgenda {s : State} (hs : s.agenda = []) (es : List Event) :
    Host.Core.run core es.length (setAgenda es s) = play es s := by
  induction es generalizing s with
  | nil => exact congrArg Host.Outcome.next (setAgenda_self hs)
  | cons e es ih =>
    have hstep : core.step (setAgenda (e :: es) s) = mapNext (setAgenda es) (perform e s) := step_setAgenda_cons e es s
    simp only [List.length_cons, Host.Core.run, hstep, play]
    cases he : perform e s with
    | next t => exact ih ((perform_agenda he).trans hs)
    | fault r => rfl
    | refused r => rfl

/-- Settles O56: by induction on the events; no event reads or writes the agenda. -/
theorem everyInterleavingIsARun : Obligations.EveryInterleavingIsARun := fun es _ hs => run_setAgenda hs es

end Sys2Proof.Machine
end

section
/-! PROOFS. Messages applied to the buffer (20_memory.md section 3, 40_bus_commands.md section 3): rewriting a cell, the trailing
byte, and the pair that decides a cell. -/

namespace Sys2Proof.Machine

/-- Writing back the byte an address reads leaves the list as it is: the entry is found again, and there is none to make for
an address that is not listed. -/
theorem Memory.write_read_self {d : Byte} {x : Memory} (hx : Memory.wf d x) (a : Nat) :
    Memory.write d x a (Memory.read d x a) = x := by
  induction x with
  | nil => simp [Memory.read, Memory.write]
  | cons p rest ih =>
    obtain ⟨b, w⟩ := p
    rcases Nat.lt_trichotomy a b with hlt | rfl | hgt
    · have hunlisted : Memory.read d ((b, w) :: rest) a = d := Memory.read_of_not_listed fun q hq => by
        rcases List.mem_cons.mp hq with rfl | hq
        · exact hlt
        · exact Nat.lt_trans hlt ((List.pairwise_cons.mp hx.1).1 q hq)
      simp [Memory.write, hlt, hunlisted]
    · have hw : w ≠ d := hx.2 (a, w) (by simp)
      simp [Memory.read, Memory.write, hw]
    · have hread : Memory.read d ((b, w) :: rest) a = Memory.read d rest a := if_neg (Nat.ne_of_gt hgt)
      rw [hread, Memory.write, if_neg (Nat.lt_asymm hgt), if_neg (Nat.ne_of_gt hgt), ih (Memory.wf_tail hx)]

/-- Settles O43: a read that has a value is of an address on the board, and the contract writes that byte back. -/
theorem rewriteChangesNothing : Obligations.RewriteChangesNothing := by
  intro s a v hs hread
  have hin : inRange s.cfg a = true := (memRead_isSome_iff s a).mp ⟨v, hread⟩
  obtain rfl : Memory.read (unlisted s.cfg) s.mem a.toNat = v := by simpa [memRead, loadCell, hin] using hread
  have hstore : storeCell s.cfg s.mem a (Memory.read (unlisted s.cfg) s.mem a.toNat) = s.mem :=
    (if_pos hin).trans (Memory.write_read_self hs a.toNat)
  rw [memWrite, hstore, setMem]

/-- Settles O44: after an even number of bytes the message that remains is the one byte, which stores nothing. -/
theorem trailingByteHasNoEffect : Obligations.TrailingByteHasNoEffect := fun c x _ b hm => applyMsg_append c x [b] hm

/-- A message none of whose pairs names `idx` leaves that cell alone. -/
theorem loadCell_applyMsg_of_not_named {c : Config} {x : Memory} {m : Message} {idx : Byte}
    (h : ∀ p, Instr.wr idx p ∉ decode m) : loadCell c (applyMsg c x m) (digitIndex idx) = loadCell c x (digitIndex idx) := by
  induction m using decode.induct generalizing x with
  | case1 => rfl
  | case2 => rfl
  | case3 j pat rest ih =>
    have hne : (digitIndex idx : Int) ≠ digitIndex j := fun heq =>
      h pat (by rw [BitVec.eq_of_toNat_eq (Int.ofNat_inj.mp heq)]; exact List.mem_cons_self)
    rw [applyMsg, ih fun p hp => h p (List.mem_cons_of_mem _ hp), loadCell_storeCell_other hne]

/-- Settles O45: the pair stores its pattern, and nothing after it names the digit. -/
theorem laterPairWins : Obligations.LaterPairWins := by
  intro c x m m' idx pat hx hm hidx hlater
  rw [applyMsg_append c x _ hm, applyMsg, loadCell_applyMsg_of_not_named hlater]
  exact loadCell_storeCell_same (applyMsg_wf hx m) (by simpa [inRange_natCast] using hidx) pat

end Sys2Proof.Machine
end

section
/-! PROOFS. The handler's turns (40_bus_commands.md section 2): what each does, the run over one message, what the turns still to
come will make of the buffer, and how many they are. -/

namespace Sys2Proof.Machine

theorem bchTurn_of_pair {s : State} {idx pat : Byte} {rest : Message} (h : s.rx = some (idx :: pat :: rest)) :
    bchTurn s = .next (memWrite (digitIndex idx) pat (setRx (some rest) s)) :=
  (bchTurn_of_decodeFirst h rfl).trans (exec_wr_of_rx h)

theorem bchTurn_of_trailingByte {s : State} {b : Byte} (h : s.rx = some [b]) : bchTurn s = .next (setRx (some []) s) :=
  (bchTurn_of_decodeFirst h rfl).trans (exec_trail_of_rx h)

theorem bchTurn_of_end {s : State} (h : s.rx = some []) : bchTurn s = .next (leaveHandler s) :=
  (bchTurn_of_noneUnread h).trans (exec_rxEnd_of_rx h)

theorem bchTurn_of_message {s : State} {m : Message} {q : List Message} (hrx : s.rx = none) (hq : s.rxq = m :: q) :
    bchTurn s = .next (enterHandler m q s) :=
  (bchTurn_of_pending hrx (by simp [hq])).trans (exec_rxBegin_of_pending hrx hq)

/-- One turn for each operation of the message and one for the return apply it and leave the handler idle. -/
theorem play_unread_message {s : State} {m : Message} (h : s.rx = some m) :
    play (List.replicate ((decode m).length + 1) .bch) s = .next { s with rx := none, mem := applyMsg s.cfg s.mem m } := by
  induction m using decode.induct generalizing s with
  | case1 => exact play_cons_next.mpr ⟨_, bchTurn_of_end h, rfl⟩
  | case2 b =>
    have hend := bchTurn_of_end (setRx_rx (some []) s)
    exact play_cons_next.mpr ⟨_, bchTurn_of_trailingByte h, play_cons_next.mpr ⟨_, hend, rfl⟩⟩
  | case3 idx pat rest ih => exact play_cons_next.mpr ⟨_, bchTurn_of_pair h, ih rfl⟩

/-- Settles O46: one turn takes the message up, and `play_unread_message` runs it. -/
theorem handlerRunAppliesMessage : Obligations.HandlerRunAppliesMessage := by
  intro s m q hrx hq
  refine ⟨(decode m).length + 2, ?_, play_cons_next.mpr ⟨_, bchTurn_of_message hrx hq, play_unread_message rfl⟩⟩
  rw [length_decode]
  omega

/-- Any event but a turn of `BCH` leaves the handler's work alone and adds what it delivers to the end of the queue. -/
theorem perform_delivers {e : Event} {s t : State} (he : e ≠ .bch) (h : perform e s = .next t) :
    t.mem = s.mem ∧ t.rx = s.rx ∧ t.rxq = s.rxq ++ delivered s.cfg e := by
  obtain ⟨hmem, hrx⟩ := perform_of_ne_bch he h
  refine ⟨hmem, hrx, ?_⟩
  cases e with
  | hostWrite dest m =>
    cases hd : targetReaches s.cfg dest with
    | true =>
      rw [perform_hostWrite hd, hostSend] at h
      split at h
      · rw [← Host.Outcome.next.inj h]
        simp [delivered, hd]
      · cases h
    | false =>
      rw [perform_hostWrite_elsewhere hd] at h
      cases h
      simp [delivered, hd]
  | hostRead dest extra =>
    rcases perform_next h with rfl | ⟨_, _, ⟨⟩, _⟩ | ⟨_, _, _, rfl⟩ | ⟨⟨⟩, _⟩ | ⟨⟨⟩, _⟩ | ⟨⟨⟩, _⟩ <;> simp [delivered]
  | clock | scan =>
    obtain ⟨_, _, _, hkept, _⟩ := agentsWriteOnlyTheirState _ s t h
    simp [delivered, hkept]
  | bch => exact absurd rfl he

/-- The handler's turns carry out what was to come of the buffer, and do not change it. -/
theorem settled_bchTurn {s t : State} (h : bchTurn s = .next t) : settled t = settled s := by
  rcases bchTurn_next h with ⟨_, _, rfl⟩ | ⟨m, q, hrx, hq, rfl⟩ | ⟨idx, pat, rest, hrx, rfl⟩ | ⟨b, hrx, rfl⟩ | ⟨hrx, rfl⟩
  · rfl
  · simp [settled, hrx, hq, applyMsg]
  · simp [settled, hrx, applyMsg]
  · simp [settled, hrx, applyMsg]
  · simp [settled, hrx, applyMsg]

/-- What will become of the buffer changes by the messages an event delivers, applied last. -/
theorem settled_perform {e : Event} {s t : State} (h : perform e s = .next t) :
    settled t = (delivered s.cfg e).foldl (applyMsg s.cfg) (settled s) := by
  by_cases he : e = .bch
  · subst he
    exact settled_bchTurn h
  · obtain ⟨hmem, hrx, hq⟩ := perform_delivers he h
    rw [settled, hmem, hrx, hq, perform_cfg h, List.foldl_append]
    rfl

theorem settled_play {es : List Event} {s t : State} (h : play es s = .next t) :
    settled t = (es.flatMap (delivered s.cfg)).foldl (applyMsg s.cfg) (settled s) := by
  induction es generalizing s with
  | nil => exact Host.Outcome.next.inj h ▸ rfl
  | cons e es ih =>
    obtain ⟨u, hu, ht⟩ := play_cons_next.mp h
    rw [ih ht, perform_cfg hu, settled_perform hu, List.flatMap_cons, List.foldl_append]

/-- In a quiescent state nothing is still to be applied. -/
theorem settled_of_quiescent {s : State} (h : Quiescent s) : settled s = s.mem := by
  obtain ⟨hq, hrx, _⟩ := h
  simp [settled, hq, hrx, applyMsg]

/-- Settles O47: every event keeps `settled` but for what it delivers, and a quiescent state is settled. -/
theorem quiescentBufferIsMessagesApplied : Obligations.QuiescentBufferIsMessagesApplied :=
  fun _ _ _ h => ⟨settled_play h, fun hquiet => (settled_of_quiescent hquiet).symm.trans (settled_play h)⟩

/-- How many turns the handler still needs for the message under way and the pending messages `q`: one for each operation,
one for each return, one to take up each pending message. -/
def handlerWork (rx : Option Message) (q : List Message) : Nat :=
  rx.elim 0 (fun m => (decode m).length + 1) + (q.map fun m => (decode m).length + 2).sum

/-- With no work left the handler is idle, the messages `q` are none, and the buffer is what they make of it. -/
theorem idle_of_noWork {s : State} {q d : List Message} (hq : s.rxq = q ++ d) (h : handlerWork s.rx q = 0) :
    s.rx = none ∧ s.rxq = d ∧ s.mem = settled (setRxq q s) := by
  obtain ⟨hrx, rfl⟩ : s.rx = none ∧ q = [] := by
    cases hrx : s.rx <;> cases q <;> simp_all [handlerWork]
  exact ⟨hrx, by simpa using hq, by simp [settled, hrx, applyMsg]⟩

/-- A turn of a handler that has work left does one unit of it, and what the messages `q` will make of the buffer stays. The
messages `d` behind them stay pending. -/
theorem bchTurn_works {s t : State} {q d : List Message} (hq : s.rxq = q ++ d) (hwork : handlerWork s.rx q ≠ 0)
    (h : bchTurn s = .next t) :
    ∃ q', t.rxq = q' ++ d ∧ handlerWork t.rx q' + 1 = handlerWork s.rx q ∧
      settled (setRxq q' t) = settled (setRxq q s) := by
  rcases bchTurn_next h with
    ⟨hrx, hnil, rfl⟩ | ⟨m, r, hrx, hcons, rfl⟩ | ⟨idx, pat, rest, hrx, rfl⟩ | ⟨b, hrx, rfl⟩ | ⟨hrx, rfl⟩
  · obtain ⟨rfl, _⟩ := List.append_eq_nil_iff.mp (hq.symm.trans hnil)
    exact absurd (by simp [handlerWork, hrx]) hwork
  · cases q with
    | nil => exact absurd (by simp [handlerWork, hrx]) hwork
    | cons m' q =>
      obtain ⟨rfl, rfl⟩ := List.cons.inj (hcons.symm.trans hq)
      refine ⟨q, rfl, ?_, by simp [settled, hrx, applyMsg]⟩
      simp only [handlerWork, enterHandler_rx, hrx, Option.elim, List.map_cons, List.sum_cons]
      omega
  · refine ⟨q, hq, ?_, by simp [settled, hrx, applyMsg]⟩
    simp only [handlerWork, memWrite_rx, setRx_rx, hrx, Option.elim, decode, List.length_cons]
    omega
  · refine ⟨q, hq, ?_, by simp [settled, hrx, applyMsg]⟩
    simp only [handlerWork, setRx_rx, hrx, Option.elim, decode, List.length_cons, List.length_nil]
    omega
  · refine ⟨q, hq, ?_, by simp [settled, hrx, applyMsg]⟩
    simp only [handlerWork, leaveHandler_rx, hrx, Option.elim, decode, List.length_nil]
    omega

/-- Of the events only a turn of `BCH` does a unit of the work; any other adds what it delivers behind the messages `d`. -/
theorem perform_works {e : Event} {s t : State} {q d : List Message} (hq : s.rxq = q ++ d) (hwork : handlerWork s.rx q ≠ 0)
    (h : perform e s = .next t) :
    ∃ q', t.rxq = q' ++ (d ++ delivered s.cfg e) ∧ handlerWork t.rx q' + [e].count .bch = handlerWork s.rx q ∧
      settled (setRxq q' t) = settled (setRxq q s) := by
  by_cases he : e = .bch
  · subst he
    obtain ⟨q', hq', hwork', hsettled⟩ := bchTurn_works hq hwork h
    exact ⟨q', by simpa [delivered] using hq', by simpa using hwork', hsettled⟩
  · obtain ⟨hmem, hrx, hrxq⟩ := perform_delivers he h
    exact ⟨q, by rw [hrxq, hq, List.append_assoc], by simp [hrx, he], by simp [settled, hmem, hrx, perform_cfg h]⟩

/-- Along every run with enough turns of the handler there is a moment at which it is idle, the message that was under way
and the messages `q` are applied, and the messages `d` behind them are pending with those delivered since. -/
theorem play_drains {es : List Event} {s t : State} {q d : List Message} (hq : s.rxq = q ++ d)
    (hwork : handlerWork s.rx q ≤ es.count .bch) (h : play es s = .next t) :
    ∃ n u, play (es.take n) s = .next u ∧ u.rx = none ∧ u.rxq = d ++ (es.take n).flatMap (delivered s.cfg) ∧
      u.mem = settled (setRxq q s) := by
  induction es generalizing s q d with
  | nil =>
    obtain ⟨hrx, hrest, hmem⟩ := idle_of_noWork hq (Nat.le_zero.mp hwork)
    exact ⟨0, s, rfl, hrx, by simpa using hrest, hmem⟩
  | cons e es ih =>
    obtain ⟨v, hv, ht⟩ := play_cons_next.mp h
    by_cases hzero : handlerWork s.rx q = 0
    · obtain ⟨hrx, hrest, hmem⟩ := idle_of_noWork hq hzero
      exact ⟨0, s, rfl, hrx, by simpa using hrest, hmem⟩
    · obtain ⟨q', hq', hwork', hsettled⟩ := perform_works hq hzero hv
      have hcount : (e :: es).count .bch = [e].count .bch + es.count .bch := List.count_append (l₁ := [e])
      obtain ⟨n, u, hu, hidle, hrest, hmem⟩ := ih hq' (by omega) ht
      refine ⟨n + 1, u, play_cons_next.mpr ⟨v, hv, hu⟩, hidle, ?_, hmem.trans hsettled⟩
      rw [hrest, perform_cfg hv, List.take_succ_cons, List.flatMap_cons, List.append_assoc]

/-- Settles O48: the message under way alone is `floor(L/2)`, perhaps one, and one turns' work. -/
theorem handlerReturnsWithinItsTurns : Obligations.HandlerReturnsWithinItsTurns := by
  intro es s t m hrx hcount h
  have hwork : handlerWork s.rx [] ≤ es.count .bch := by
    simp only [handlerWork, hrx, Option.elim, length_decode, List.map_nil, List.sum_nil]
    omega
  obtain ⟨n, u, hu, hidle, _, _⟩ := play_drains (List.nil_append s.rxq).symm hwork h
  exact ⟨n, u, hu, hidle⟩

end Sys2Proof.Machine
end

section
/-! PROOFS. The sweep (41_scan_engine.md section 2): how many turns it still needs, and that every turn of the Scan Engine is one
of them. -/

namespace Sys2Proof.Machine

/-- How many turns of `SCAN` the sweep under way on a board of `n` digits still needs: eleven for each digit to come, fewer for
the digit under way, one for `CLEAR`. -/
def sweepWork (n : Nat) : Pc → Nat
  | .idle => 0
  | .clear => 1 + 11 * n
  | .sel i => 11 * (n - i)
  | .drv i k => 11 * (n - i) - (1 + k.val)
  | .dwl i => 11 * (n - i) - 9
  | .rel i => 11 * (n - i) - 10

theorem sweepWork_le (n : Nat) (p : Pc) : sweepWork n p ≤ 1 + 11 * n := by
  cases p <;> simp only [sweepWork] <;> omega

theorem sweepWork_eq_zero {n : Nat} {p : Pc} (hp : p.onBoard n = true) (h : sweepWork n p = 0) : p = .idle := by
  cases p <;> simp only [sweepWork, Pc.onBoard, decide_eq_true_eq, reduceCtorEq] at * <;> omega

theorem sweepWork_afterDrive {n i : Nat} {k : Fin 8} (hi : i < n) :
    sweepWork n (afterDrive i k) + 1 = sweepWork n (.drv i k) := by
  rcases afterDrive_cases i k with ⟨hk, h⟩ | ⟨hk, h⟩ <;> simp only [h, sweepWork] <;> omega

theorem sweepWork_afterRelease {c : Config} {i : Nat} (hi : i < c.digitCount) :
    sweepWork c.digitCount (afterRelease c i) + 1 = sweepWork c.digitCount (.rel i) := by
  rcases afterRelease_cases c i with ⟨hlt, h⟩ | ⟨hlast, h⟩ <;> simp only [h, sweepWork] <;> omega

/-- Every turn of a sweep under way is one of those it needs. -/
theorem scanTurn_works {s t : State} (hwf : s.WF) (hpc : s.pc ≠ .idle) (h : scanTurn s = .next t) :
    sweepWork s.cfg.digitCount t.pc + 1 = sweepWork s.cfg.digitCount s.pc := by
  have hon := hwf.pcOk
  rcases scanTurn_next h with
    ⟨hp, _, _⟩ | ⟨hp, _, _⟩ | ⟨hp, rfl⟩ | ⟨i, hp, rfl⟩ | ⟨i, k, v, hp, _, rfl⟩ | ⟨i, hp, rfl⟩ | ⟨i, hp, rfl⟩
  iterate 2 exact absurd hp hpc
  all_goals rw [hp] at hon ⊢
  · simp only [setPc_pc, sweepWork]
    omega
  · have hi : i < s.cfg.digitCount := of_decide_eq_true hon
    simp only [setPc_pc, sweepWork, Fin.val_zero]
    omega
  · exact sweepWork_afterDrive (of_decide_eq_true hon)
  · have hi : i < s.cfg.digitCount := of_decide_eq_true hon
    simp only [setPc_pc, sweepWork]
    omega
  · exact sweepWork_afterRelease (of_decide_eq_true hon)

/-- Of the events only a turn of `SCAN` moves a sweep under way, by one turn of its work. -/
theorem perform_sweepWork {e : Event} {s t : State} (hwf : s.WF) (hpc : s.pc ≠ .idle) (h : perform e s = .next t) :
    sweepWork t.cfg.digitCount t.pc + [e].count .scan = sweepWork s.cfg.digitCount s.pc := by
  rw [perform_cfg h]
  by_cases he : e = .scan
  · subst he
    exact scanTurn_works hwf hpc h
  · obtain ⟨_, _, hkept, _⟩ := perform_of_ne_scan he h
    simp [hkept, he]

/-- Along every run with enough turns of `SCAN` there is a moment at which the engine is idle. -/
theorem play_ends_sweep {es : List Event} {s t : State} (hwf : s.WF)
    (hwork : sweepWork s.cfg.digitCount s.pc ≤ es.count .scan) (h : play es s = .next t) :
    ∃ n u, play (es.take n) s = .next u ∧ u.pc = .idle := by
  induction es generalizing s with
  | nil => exact ⟨0, s, rfl, sweepWork_eq_zero hwf.pcOk (Nat.le_zero.mp hwork)⟩
  | cons e es ih =>
    obtain ⟨v, hv, ht⟩ := play_cons_next.mp h
    by_cases hidle : s.pc = .idle
    · exact ⟨0, s, rfl, hidle⟩
    · have hstep := perform_sweepWork hwf hidle hv
      have hcount : (e :: es).count .scan = [e].count .scan + es.count .scan := List.count_append (l₁ := [e])
      obtain ⟨n, u, hu, hend⟩ := ih (perform_keeps_wf hwf hv) (by omega) ht
      exact ⟨n + 1, u, play_cons_next.mpr ⟨v, hv, hu⟩, hend⟩

/-- Settles O49: no position needs more turns than `CLEAR` does. -/
theorem sweepEndsWithinItsTurns : Obligations.SweepEndsWithinItsTurns :=
  fun _ _ _ hwf hcount h => play_ends_sweep hwf ((sweepWork_le ..).trans hcount) h

end Sys2Proof.Machine
end

section
/-! PROOFS. The uninterrupted turns of the Scan Engine (41_scan_engine.md section 4): the drive of one digit, the pass over it and
the sweep over the board, each as the exact state it ends in. -/

namespace Sys2Proof.Machine

/-- `n` turns of the Scan Engine and nothing else. -/
abbrev scanTurns (n : Nat) (s : State) : Answer := play (List.replicate n .scan) s

theorem scanTurns_succ {n : Nat} {s t u : State} {p : Pc} (hpc : s.pc = p) (h : exec (scanInstr p) s = .next u)
    (ht : scanTurns n u = .next t) : scanTurns (n + 1) s = .next t :=
  play_cons_next.mpr ⟨u, (scanTurn_of_pc hpc).trans h, ht⟩

theorem scanTurns_add {m n : Nat} {s t u : State} (h : scanTurns m s = .next u) (ht : scanTurns n u = .next t) :
    scanTurns (m + n) s = .next t := by
  rw [scanTurns, ← List.replicate_append_replicate]
  exact play_append_next.mpr ⟨u, h, ht⟩

/-- From `DRV(i, k)` the turns that remain drive lines `k` to 7 from the pattern stored, and leave lines `0..k-1` alone. -/
theorem scanTurns_drive {s : State} {i n : Nat} {k : Fin 8} {w : Byte} (hpc : s.pc = .drv i k) (hw : memRead i s = some w)
    (hn : k.val + n = 8) :
    ∃ seg : Vector Level 8, scanTurns n s = .next { s with seg := seg, pc := .dwl i } ∧
      ∀ j : Fin 8, seg[j] = if j.val < k.val then s.seg[j] else lvl s.cfg (segmentBit w j) := by
  induction n generalizing s k with
  | zero => omega
  | succ n ih =>
    have hturn := exec_drive_of_pc hpc hw
    have hlines (j : Fin 8) (hj : j.val < k.val + 1) :
        (setSeg k (lvl s.cfg (segmentBit w k)) s).seg[j] =
          if j.val < k.val then s.seg[j] else lvl s.cfg (segmentBit w j) := by
      by_cases hjk : j = k
      · subst hjk
        rw [seg_setSeg_same, if_neg (Nat.lt_irrefl _)]
      · have hne : j.val ≠ k.val := fun h => hjk (Fin.ext h)
        rw [seg_setSeg_other hjk, if_pos (by omega)]
    rcases afterDrive_cases i k with ⟨hk, hnext⟩ | ⟨hk, hnext⟩
    · rw [hnext] at hturn
      obtain ⟨seg, hplay, hseg⟩ :=
        ih (s := setPc (.drv i ⟨k.val + 1, by omega⟩) (setSeg k (lvl s.cfg (segmentBit w k)) s)) rfl hw (by simp only; omega)
      refine ⟨seg, scanTurns_succ hpc hturn hplay, fun j => (hseg j).trans ?_⟩
      by_cases hj : j.val < k.val + 1
      · exact (if_pos hj).trans (hlines j hj)
      · exact (if_neg hj).trans (if_neg (by omega)).symm
    · obtain rfl : n = 0 := by omega
      rw [hnext] at hturn
      exact ⟨_, scanTurns_succ hpc hturn rfl, fun j => hlines j (by omega)⟩

/-- From `SEL(i)` nine turns select the digit and drive all lines from its pattern. -/
theorem scanTurns_show {s : State} {i : Nat} {v : Byte} (hpc : s.pc = .sel i) (hv : memRead i s = some v) :
    ∃ seg : Vector Level 8, scanTurns 9 s = .next { s with com := s.com.set i (levelOn s.cfg), seg := seg, pc := .dwl i } ∧
      ∀ j : Fin 8, seg[j] = lvl s.cfg (segmentBit v j) := by
  obtain ⟨seg, hplay, hseg⟩ :=
    scanTurns_drive (s := setPc (.drv i 0) (setCom i (levelOn s.cfg) s)) (n := 8) rfl hv (Nat.zero_add 8)
  exact ⟨seg, scanTurns_succ hpc (exec_select_of_pc hpc) hplay, fun j => (hseg j).trans (if_neg (Nat.not_lt_zero _))⟩

/-- From `SEL(i)` eleven turns are the whole pass over digit `i`. -/
theorem scanTurns_pass {s : State} {i : Nat} {v : Byte} (hpc : s.pc = .sel i) (hv : memRead i s = some v) :
    ∃ seg : Vector Level 8,
      scanTurns 11 s = .next
        { s with
          com := if releaseDeselects s.cfg i then (s.com.set i (levelOn s.cfg)).set i (levelOff s.cfg)
            else s.com.set i (levelOn s.cfg)
          seg := seg, pc := afterRelease s.cfg i } ∧
      ∀ j : Fin 8, seg[j] = lvl s.cfg (segmentBit v j) := by
  obtain ⟨seg, hplay, hseg⟩ := scanTurns_show hpc hv
  refine ⟨seg, scanTurns_add (n := 2) hplay ?_, hseg⟩
  exact scanTurns_succ rfl (exec_dwell_of_pc rfl) (scanTurns_succ rfl (exec_release_of_pc rfl) rfl)

/-- From `CLEAR` the turns before the pass over digit `i` leave every common off. -/
theorem scanTurns_reach_sel {s : State} (hpc : s.pc = .clear) {i : Nat} (hi : i < s.cfg.digitCount) :
    ∃ seg : Vector Level 8, scanTurns (1 + 11 * i) s =
      .next { s with com := List.replicate s.cfg.digitCount (levelOff s.cfg), seg := seg, pc := .sel i } := by
  induction i with
  | zero => exact ⟨s.seg, scanTurns_succ hpc (exec_deselectAll_of_pc hpc) rfl⟩
  | succ i ih =>
    obtain ⟨seg, hplay⟩ := ih (by omega)
    obtain ⟨v, hv⟩ := memRead_of_lt (s := s) (i := i) (by omega)
    obtain ⟨seg', hpass, _⟩ := scanTurns_pass
      (s := { s with com := List.replicate s.cfg.digitCount (levelOff s.cfg), seg := seg, pc := .sel i }) rfl hv
    have hnext : hasNextDigit s.cfg i = true := (hasNextDigit_iff ..).mpr hi
    simp only [releaseDeselects, afterRelease, hnext, Bool.true_or, if_true, List.set_set, List.set_replicate_self] at hpass
    have hturns : 1 + 11 * (i + 1) = 1 + 11 * i + 11 := by omega
    rw [hturns]
    exact ⟨seg', scanTurns_add hplay hpass⟩

/-- Settles O52: digit `i` is dwelt on nine turns after its selection is reached, and the pass over the last digit is the end of
the sweep. -/
theorem uninterruptedSweepShowsBuffer : Obligations.UninterruptedSweepShowsBuffer := by
  intro s hwf hpc
  refine ⟨fun i v hv => ?dwell, ?finish⟩
  case dwell =>
    have hi : i < s.cfg.digitCount := by simpa [inRange_natCast] using (memRead_isSome_iff s i).mp ⟨v, hv⟩
    obtain ⟨seg, hplay⟩ := scanTurns_reach_sel hpc hi
    obtain ⟨seg', hshow, hseg⟩ := scanTurns_show
      (s := { s with com := List.replicate s.cfg.digitCount (levelOff s.cfg), seg := seg, pc := .sel i }) rfl hv
    exact ⟨_, scanTurns_add hplay hshow, rfl, hseg⟩
  case finish =>
    have hpos := digitCount_pos hwf.cfgOk
    obtain ⟨v, hv⟩ := memRead_of_lt (s := s) (i := s.cfg.digitCount - 1) (by omega)
    obtain ⟨seg, hplay⟩ := scanTurns_reach_sel hpc (i := s.cfg.digitCount - 1) (by omega)
    obtain ⟨seg', hpass, hseg⟩ := scanTurns_pass
      (s := { s with com := List.replicate s.cfg.digitCount (levelOff s.cfg), seg := seg, pc := .sel (s.cfg.digitCount - 1) })
      rfl hv
    have hlast : hasNextDigit s.cfg (s.cfg.digitCount - 1) = false := by simp [hasNextDigit]; omega
    have hturns : 1 + 11 * s.cfg.digitCount = 1 + 11 * (s.cfg.digitCount - 1) + 11 := by omega
    simp only [releaseDeselects, afterRelease, hlast, Bool.false_or, Bool.not_eq_true', Bool.false_eq_true, if_false,
      List.set_set, List.set_replicate_self] at hpass
    refine ⟨_, hturns ▸ scanTurns_add hplay hpass, ?_, fun w hw k => ?_⟩
    · cases s.cfg.holdLastDigit <;> rfl
    · rw [Option.some.inj (hw.symm.trans hv)]
      exact hseg k

/-- The event that ends the dwell on a digit is its `DWELL`. -/
theorem perform_leaves_dwell {e : Event} {s t : State} {d : Nat} (hpc : s.pc = .dwl d) (h : perform e s = .next t) :
    t.pc = .dwl d ∨ t.pc = .rel d := by
  rcases scanTurn_of_perform h with ⟨_, _, hkept, _⟩ | ⟨_, hscan⟩
  · exact .inl (hkept.trans hpc)
  · rw [scanTurn_of_pc hpc] at hscan
    obtain ⟨_, rfl⟩ := execDwell_next hscan
    exact .inr rfl

/-- A run that leaves the dwell on digit `d`, whatever that dwell showed, and along which `p` stays stored shows `p` at every
later dwell: at the moment of leaving nothing is shown of the next pass. -/
theorem driveShows_after_dwell {es : List Event} {s t : State} {d : Nat} {p : Byte} (hpc : s.pc = .dwl d)
    (hstored : ∀ n x, play (es.take n) s = .next x → memRead d x = some p)
    (hleft : ∃ n x, play (es.take n) s = .next x ∧ x.pc ≠ .dwl d) (h : play es s = .next t) : DriveShows d p t := by
  induction es generalizing s with
  | nil =>
    obtain ⟨n, x, hx, hne⟩ := hleft
    rw [List.take_nil] at hx
    exact absurd hpc (Host.Outcome.next.inj hx ▸ hne)
  | cons e es ih =>
    obtain ⟨u, hu, ht⟩ := play_cons_next.mp h
    have hstored' (n : Nat) (x : State) (hx : play (es.take n) u = .next x) : memRead d x = some p :=
      hstored (n + 1) x (play_cons_next.mpr ⟨u, hu, hx⟩)
    rcases perform_leaves_dwell hpc hu with hdwl | hrel
    · obtain ⟨n, x, hx, hne⟩ := hleft
      cases n with
      | zero => exact absurd hpc (Host.Outcome.next.inj hx ▸ hne)
      | succ n =>
        obtain ⟨u', hu', hx⟩ := play_cons_next.mp hx
        obtain rfl := Host.Outcome.next.inj (hu.symm.trans hu')
        exact ih hdwl hstored' ⟨n, x, hx, hne⟩ ht
    · have hshows : DriveShows d p u := driveShows_elsewhere (by simp [hrel]) (by simp [hrel]) p
      exact play_keeps_while (fun _ _ _ hp hs he => perform_keeps_driveShows hp hs he) hstored' hshows ht

/-- Settles O51: the mixture is the drive of the lines that remain; the later dwells are `driveShows_after_dwell`. -/
theorem tornRenderingMixesAtWrite : Obligations.TornRenderingMixesAtWrite := by
  intro s i k u w hpc hw hu
  obtain ⟨seg, hplay, hseg⟩ := scanTurns_drive (n := 8 - k.val) hpc hw (by omega)
  refine ⟨_, hplay, rfl, fun j => (hseg j).trans ?_, fun es v hstored hleft hv hdwl => ?_⟩
  · split
    · exact hu j ‹_›
    · rfl
  · have hcfg : v.cfg = s.cfg := (play_cfg hv :)
    exact hcfg ▸ linesShow_eight.mp ((driveShows_after_dwell rfl hstored hleft hv).2 hdwl)

end Sys2Proof.Machine
end

section
/-! PROOFS. The physical pins (10_state.md section 2): a table of different labels gives each label the value at its own place. -/

namespace Sys2Proof.Machine

theorem lookup_zip_of_nodup {keys : List PinId} (hkeys : keys.Nodup) {i : Nat} {p : PinId} (hp : keys[i]? = some p)
    (vals : List Level) : (keys.zip vals).lookup p = vals[i]? := by
  induction keys generalizing i vals with
  | nil => simp at hp
  | cons key keys ih =>
    obtain ⟨hfresh, hrest⟩ := List.nodup_cons.mp hkeys
    cases vals with
    | nil => simp
    | cons val vals =>
      cases i with
      | zero =>
        obtain rfl : key = p := by simpa using hp
        simp
      | succ i =>
        have hp' : keys[i]? = some p := by simpa using hp
        have hne : (p == key) = false := beq_false_of_ne fun h => hfresh (h ▸ List.mem_of_getElem? hp')
        rw [List.zip_cons_cons, List.lookup_cons, hne, List.getElem?_cons_succ]
        exact ih hrest hp' vals

/-- The two tables of `pinLevel` are one, commons first, and a valid configuration repeats no label in it. -/
theorem pinLevel_of_getElem? {s : State} (hs : s.WF) {i : Nat} {p : PinId}
    (hp : (s.cfg.commonPin ++ s.cfg.segmentPin)[i]? = some p) : pinLevel p s = (s.com ++ s.seg.toList)[i]? := by
  obtain ⟨_, ⟨hcommon, _⟩, hnodup, _⟩ := (configValid_iff _).mp hs.cfgOk
  rw [pinLevel, ← List.zip_append (hcommon.trans hs.comOk.symm)]
  exact lookup_zip_of_nodup hnodup hp _

/-- Settles O55: the place of a label in the joint table is that of its latch. -/
theorem pinsCarryTheirLatches : Obligations.PinsCarryTheirLatches := by
  intro s hs
  obtain ⟨_, ⟨hcommon, _⟩, _⟩ := (configValid_iff _).mp hs.cfgOk
  have hlen : s.cfg.commonPin.length = s.com.length := hcommon.trans hs.comOk.symm
  refine ⟨fun i p hp => ?common, fun k p hp => ?segment⟩
  case common =>
    have hi : i < s.cfg.commonPin.length := (List.getElem?_eq_some_iff.mp hp).1
    rw [pinLevel_of_getElem? hs ((List.getElem?_append_left hi).trans hp), List.getElem?_append_left (hlen ▸ hi)]
  case segment =>
    have hplace : (s.cfg.commonPin ++ s.cfg.segmentPin)[s.cfg.commonPin.length + k.val]? = some p := by
      rw [List.getElem?_append_right (Nat.le_add_right ..), Nat.add_sub_cancel_left, hp]
    rw [pinLevel_of_getElem? hs hplace, hlen, List.getElem?_append_right (Nat.le_add_right ..), Nat.add_sub_cancel_left]
    simp

end Sys2Proof.Machine
end

section
/-! PROOFS. Endless orders of turns (60_exceptions.md section 3): their stretches, that a turn that comes again and again comes as
often as wanted, and that a machine whose host keeps within bounds runs along every stretch. -/

namespace Sys2Proof.Machine

theorem Fair.bch_again {order : Nat → Event} (h : Fair order) (n : Nat) : ∃ m, n ≤ m ∧ order m = .bch := (h n).1

theorem Fair.scan_again {order : Nat → Event} (h : Fair order) (n : Nat) : ∃ m, n ≤ m ∧ order m = .scan := (h n).2.1

theorem Fair.clock_again {order : Nat → Event} (h : Fair order) (n : Nat) : ∃ m, n ≤ m ∧ order m = .clock := (h n).2.2

theorem turnsFrom_add (order : Nat → Event) (k m n : Nat) :
    turnsFrom order k (m + n) = turnsFrom order k m ++ turnsFrom order (k + m) n := by
  simp [turnsFrom, List.range_add, Nat.add_assoc]

theorem turnsFrom_one (order : Nat → Event) (k : Nat) : turnsFrom order k 1 = [order k] := rfl

theorem turnsFrom_zero (order : Nat → Event) (n : Nat) : turnsFrom order 0 n = firstTurns order n := by
  simp [turnsFrom, firstTurns]

theorem take_turnsFrom (order : Nat → Event) (k n l : Nat) : (turnsFrom order k l).take n = turnsFrom order k (min n l) := by
  simp [turnsFrom, ← List.map_take, List.take_range]

theorem play_singleton_next {e : Event} {s t : State} : play [e] s = .next t ↔ perform e s = .next t :=
  play_cons_next.trans (by simp [play])

/-- A stretch and the turn after it. -/
theorem play_turnsFrom_succ {order : Nat → Event} {k n : Nat} {s t : State} :
    play (turnsFrom order k (n + 1)) s = .next t ↔
      ∃ u, play (turnsFrom order k n) s = .next u ∧ perform (order (k + n)) u = .next t := by
  simp only [turnsFrom_add, turnsFrom_one, play_append_next, play_singleton_next]

/-- The next turn of an agent that has a turn again and again ends a stretch in which it has none. -/
theorem exists_next_turn {order : Nat → Event} {e : Event} (h : ∀ n, ∃ m, n ≤ m ∧ order m = e) (k : Nat) :
    ∃ l, order (k + l) = e ∧ e ∉ turnsFrom order k l := by
  have hex : ∃ l, order (k + l) = e := by
    obtain ⟨m, hm, he⟩ := h k
    exact ⟨m - k, by rwa [Nat.add_sub_cancel' hm]⟩
  refine ⟨Nat.find hex, Nat.find_spec hex, fun hmem => ?_⟩
  obtain ⟨j, hj, he⟩ := List.mem_map.mp hmem
  exact Nat.find_min hex (List.mem_range.mp hj) he

theorem exists_many_turns {order : Nat → Event} {e : Event} (h : ∀ n, ∃ m, n ≤ m ∧ order m = e) (k w : Nat) :
    ∃ l, w ≤ (turnsFrom order k l).count e := by
  induction w with
  | zero => exact ⟨0, Nat.zero_le _⟩
  | succ w ih =>
    obtain ⟨l, hl⟩ := ih
    obtain ⟨j, hj, _⟩ := exists_next_turn h (k + l)
    refine ⟨l + (j + 1), ?_⟩
    rw [turnsFrom_add, turnsFrom_add order (k + l), turnsFrom_one, hj, List.count_append, List.count_append,
      List.count_singleton_self]
    omega

/-- In a well-formed state every list of events within bounds runs to its end. -/
theorem play_completes {es : List Event} {s : State} (hwf : s.WF) (hin : ∀ e ∈ es, hostInBounds s.cfg e = true) :
    ∃ t, play es s = .next t := by
  induction es generalizing s with
  | nil => exact ⟨s, rfl⟩
  | cons e es ih =>
    obtain ⟨u, hu⟩ := eventInBoundsCompletes s e hwf (hin e List.mem_cons_self)
    obtain ⟨t, ht⟩ := ih (perform_keeps_wf hwf hu) fun e' he' => perform_cfg hu ▸ hin e' (List.mem_cons_of_mem e he')
    exact ⟨t, play_cons_next.mpr ⟨u, hu, ht⟩⟩

theorem play_keeps_wf {es : List Event} {s t : State} (hwf : s.WF) (h : play es s = .next t) : t.WF :=
  play_keeps (fun _ _ _ hs he => perform_keeps_wf hs he) hwf h

section
variable {order : Nat → Event} {s : State} (hwf : s.WF) (hin : ∀ n, hostInBounds s.cfg (order n) = true)
include hwf hin

theorem play_turnsFrom_completes (k n : Nat) : ∃ t, play (turnsFrom order k n) s = .next t :=
  play_completes hwf fun e he => by
    obtain ⟨j, _, rfl⟩ := List.mem_map.mp he
    exact hin (k + j)

/-- Where `BCH` has a turn again and again, what is pending or under way is applied. -/
theorem turnsFrom_drain (hbch : ∀ n, ∃ m, n ≤ m ∧ order m = .bch) (k : Nat) :
    ∃ n u, play (turnsFrom order k n) s = .next u ∧ u.rx = none ∧
      u.rxq = (turnsFrom order k n).flatMap (delivered s.cfg) ∧ u.mem = settled s := by
  obtain ⟨l, hl⟩ := exists_many_turns hbch k (handlerWork s.rx s.rxq)
  obtain ⟨t, ht⟩ := play_turnsFrom_completes hwf hin k l
  obtain ⟨n, u, hu, hidle, hrest, hmem⟩ := play_drains (List.append_nil s.rxq).symm hl ht
  rw [take_turnsFrom] at hu hrest
  exact ⟨min n l, u, hu, hidle, hrest, hmem⟩

/-- Where `SCAN` has a turn again and again, the sweep under way ends. -/
theorem turnsFrom_end_sweep (hscan : ∀ n, ∃ m, n ≤ m ∧ order m = .scan) (k : Nat) :
    ∃ n u, play (turnsFrom order k n) s = .next u ∧ u.pc = .idle := by
  obtain ⟨l, hl⟩ := exists_many_turns hscan k (sweepWork s.cfg.digitCount s.pc)
  obtain ⟨t, ht⟩ := play_turnsFrom_completes hwf hin k l
  obtain ⟨n, u, hu, hidle⟩ := play_ends_sweep hwf hl ht
  exact ⟨min n l, u, take_turnsFrom .. ▸ hu, hidle⟩

end

end Sys2Proof.Machine
end

section
/-! PROOFS. The gate under a clock that keeps pace (41_scan_engine.md section 6, log entry 36): between two closed gates the
elapsed time counts the clock's turns without wrapping, so it passes the threshold in the end. -/

namespace Sys2Proof.Machine

/-- The elapsed time the gate would see now. -/
def waited (s : State) : Nat := elapsed s.cfg s.now s.last

theorem elapsed_nextNow (c : Config) (now last : Nat) :
    elapsed c (nextNow c now) last = (elapsed c now last + 1) % 2 ^ c.timeBits := by
  have hmod : (elapsed c (nextNow c now) last : Int) = (((elapsed c now last + 1) % 2 ^ c.timeBits : Nat) : Int) := by
    rw [Int.natCast_mod, Nat.cast_add, elapsed_cast, elapsed_cast, nextNow, Int.natCast_mod, Int.emod_sub_emod,
      Int.emod_add_emod]
    congr 1
    push_cast
    ring
  exact Int.ofNat_inj.mp hmod

/-- As long as it does not wrap, the elapsed time counts the clock's turns; the other events but those of `SCAN` leave it. -/
theorem perform_waited {e : Event} {s t : State} (he : e ≠ .scan) (h : perform e s = .next t)
    (hfits : waited s + [e].count .clock < 2 ^ s.cfg.timeBits) : waited t = waited s + [e].count .clock := by
  obtain ⟨_, _, _, hlast⟩ := perform_of_ne_scan he h
  obtain ⟨_, _, hclock, _, _⟩ := agentsWriteOnlyTheirState e s t h
  by_cases hec : e = .clock
  · subst hec
    obtain rfl := Host.Outcome.next.inj h
    exact (elapsed_nextNow ..).trans (Nat.mod_eq_of_lt hfits)
  · rw [waited, perform_cfg h, hlast, hclock hec, List.count_singleton, if_neg (by simpa using hec)]
    rfl

/-- A turn of `SCAN` at `IDLE` that does not start a sweep found the gate closed and changed nothing. -/
theorem scanTurn_closed {s t : State} (hpc : s.pc = .idle) (h : scanTurn s = .next t) (hne : t.pc ≠ .clear) :
    t = s ∧ waited s ≤ s.cfg.refreshThresholdMs := by
  rw [scanTurn_of_pc hpc] at h
  obtain ⟨_, ⟨_, rfl⟩ | ⟨hclosed, rfl⟩⟩ := execGate_next h
  · exact absurd rfl hne
  · exact ⟨rfl, by simpa [gateOpen, waited] using hclosed⟩

/-- From the state `v` before turn `k` no gate has opened in `n` turns, and `u` is the state now: the elapsed time has counted all
the clock's turns since `v`, and since the last closed gate, which did not find it past the threshold, `SCAN` had no turn. -/
structure GateWaits (order : Nat → Event) (k : Nat) (v : State) (n : Nat) (u : State) : Prop where
  idle : u.pc = .idle
  counted : waited u = waited v + (turnsFrom order k n).count .clock
  bounded : ∃ m l, m + l = k + n ∧ .scan ∉ turnsFrom order m l ∧
    waited u ≤ u.cfg.refreshThresholdMs + (turnsFrom order m l).count .clock

theorem gateWaits_zero {order : Nat → Event} {k : Nat} {v : State} (hidle : v.pc = .idle)
    (hclosed : waited v ≤ v.cfg.refreshThresholdMs) : GateWaits order k v 0 v :=
  ⟨hidle, rfl, k, 0, rfl, by simp [turnsFrom], by simpa [turnsFrom] using hclosed⟩

theorem GateWaits.perform {order : Nat → Event} {k n : Nat} {v u t : State} (h : GateWaits order k v n u)
    (hpace : ClockKeepsPace u.cfg order) (ht : perform (order (k + n)) u = .next t) (hne : t.pc ≠ .clear) :
    GateWaits order k v (n + 1) t := by
  obtain ⟨hidle, hcounted, m, l, hml, hquiet, hle⟩ := h
  have hcount (k n : Nat) :
      (turnsFrom order k (n + 1)).count .clock = (turnsFrom order k n).count .clock + [order (k + n)].count .clock := by
    rw [turnsFrom_add, turnsFrom_one, List.count_append]
  by_cases he : order (k + n) = .scan
  · have hnone : [order (k + n)].count .clock = 0 := by simp [he]
    rw [he] at ht
    obtain ⟨rfl, hclosed⟩ := scanTurn_closed hidle ht hne
    exact ⟨hidle, by rw [hcount, hnone, hcounted, Nat.add_zero], k + (n + 1), 0, rfl, by simp [turnsFrom],
      by simpa [turnsFrom] using hclosed⟩
  · have hquiet' : .scan ∉ turnsFrom order m (l + 1) := by
      rw [turnsFrom_add, turnsFrom_one, hml]
      simpa [hquiet] using Ne.symm he
    have hfits := hpace m (l + 1) hquiet'
    rw [hcount, hml] at hfits
    have hwaited := perform_waited he ht (by omega)
    obtain ⟨_, _, hpc, _⟩ := perform_of_ne_scan he ht
    refine ⟨hpc.trans hidle, by rw [hwaited, hcount, hcounted, Nat.add_assoc], m, l + 1, by omega, hquiet', ?_⟩
    rw [perform_cfg ht, hwaited, hcount, hml]
    omega

theorem play_pc_of_no_scan {es : List Event} {s t : State} (hes : .scan ∉ es) (h : play es s = .next t) : t.pc = s.pc := by
  induction es generalizing s with
  | nil => exact Host.Outcome.next.inj h ▸ rfl
  | cons e es ih =>
    obtain ⟨hne, hes⟩ := List.ne_and_not_mem_of_not_mem_cons hes
    obtain ⟨u, hu, ht⟩ := play_cons_next.mp h
    obtain ⟨_, _, hpc, _⟩ := perform_of_ne_scan (Ne.symm hne) hu
    exact (ih hes ht).trans hpc

/-- While no sweep starts, the gate waits. -/
theorem gateWaits_of_never_clear {order : Nat → Event} {k : Nat} {v : State} (hidle : v.pc = .idle)
    (hclosed : waited v ≤ v.cfg.refreshThresholdMs) (hpace : ClockKeepsPace v.cfg order)
    (hnever : ∀ n u, play (turnsFrom order k n) v = .next u → u.pc ≠ .clear) {n : Nat} {u : State}
    (h : play (turnsFrom order k n) v = .next u) : GateWaits order k v n u := by
  induction n generalizing u with
  | zero => exact Host.Outcome.next.inj h ▸ gateWaits_zero hidle hclosed
  | succ n ih =>
    obtain ⟨u', hu', hstep⟩ := play_turnsFrom_succ.mp h
    exact (ih hu').perform (play_cfg hu' ▸ hpace) hstep (hnever _ _ h)

section
variable {order : Nat → Event} {s : State} (hwf : s.WF) (hin : ∀ n, hostInBounds s.cfg (order n) = true) (hfair : Fair order)
  (hpace : ClockKeepsPace s.cfg order)
include hwf hin hfair hpace

/-- From a closed gate the clock counts past the threshold, and the turn of `SCAN` after that starts a sweep. -/
theorem turnsFrom_open_gate {k : Nat} (hidle : s.pc = .idle) (hclosed : waited s ≤ s.cfg.refreshThresholdMs) :
    ∃ n u, play (turnsFrom order k n) s = .next u ∧ u.pc = .clear := by
  by_contra hnone
  have hnever (n : Nat) (u : State) (h : play (turnsFrom order k n) s = .next u) : u.pc ≠ .clear :=
    fun hc => hnone ⟨n, u, h, hc⟩
  obtain ⟨l, hl⟩ := exists_many_turns hfair.clock_again k (s.cfg.refreshThresholdMs + 1)
  obtain ⟨j, hj, _⟩ := exists_next_turn hfair.scan_again (k + l)
  obtain ⟨t, ht⟩ := play_turnsFrom_completes hwf hin k (l + j + 1)
  obtain ⟨u, hu, hstep⟩ := play_turnsFrom_succ.mp ht
  obtain ⟨huidle, hcounted, _⟩ := gateWaits_of_never_clear hidle hclosed hpace hnever hu
  rw [← Nat.add_assoc, hj] at hstep
  obtain ⟨_, hle⟩ := scanTurn_closed huidle hstep (hnever _ _ ht)
  rw [play_cfg hu, hcounted, turnsFrom_add, List.count_append] at hle
  omega

/-- From `IDLE` the first turn of `SCAN` starts a sweep or finds the gate closed. -/
theorem turnsFrom_start_sweep {k : Nat} (hidle : s.pc = .idle) :
    ∃ n u, play (turnsFrom order k n) s = .next u ∧ u.pc = .clear := by
  obtain ⟨l, hl, hquiet⟩ := exists_next_turn hfair.scan_again k
  obtain ⟨t, ht⟩ := play_turnsFrom_completes hwf hin k (l + 1)
  obtain ⟨v, hv, hstep⟩ := play_turnsFrom_succ.mp ht
  by_cases hclear : t.pc = .clear
  · exact ⟨l + 1, t, ht, hclear⟩
  · rw [hl] at hstep
    have hvidle : v.pc = .idle := (play_pc_of_no_scan hquiet hv).trans hidle
    obtain ⟨_, hclosed⟩ := scanTurn_closed hvidle hstep hclear
    obtain ⟨n, u, hu, huclear⟩ := turnsFrom_open_gate (k := k + l) (play_keeps_wf hwf hv) (play_cfg hv ▸ hin) hfair
      (play_cfg hv ▸ hpace) hvidle hclosed
    exact ⟨l + n, u, turnsFrom_add .. ▸ play_append_next.mpr ⟨v, hv, hu⟩, huclear⟩

end

/-- Settles O50: the run goes on from every state it reaches, and from there each of the three things comes about under the
fairness of the agent that does it; the sweep starts from the `IDLE` in which the one under way ends. -/
theorem fairRunAppliesMessagesAndSweeps : Obligations.FairRunAppliesMessagesAndSweeps := by
  intro order s hwf hfair hin k
  obtain ⟨t, ht⟩ := play_turnsFrom_completes hwf hin 0 k
  rw [turnsFrom_zero] at ht
  have hcfg : t.cfg = s.cfg := play_cfg ht
  have htwf := play_keeps_wf hwf ht
  rw [← hcfg] at hin ⊢
  refine ⟨t, ht, turnsFrom_drain htwf hin hfair.bch_again k, turnsFrom_end_sweep htwf hin hfair.scan_again k,
    fun hpace => ?_⟩
  obtain ⟨n, v, hv, hidle⟩ := turnsFrom_end_sweep htwf hin hfair.scan_again k
  obtain ⟨n', u, hu, hclear⟩ := turnsFrom_start_sweep (k := k + n) (play_keeps_wf htwf hv) (play_cfg hv ▸ hin) hfair
    (play_cfg hv ▸ hpace) hidle
  exact ⟨n + n', u, turnsFrom_add .. ▸ play_append_next.mpr ⟨v, hv, hu⟩, hclear⟩

end Sys2Proof.Machine
end
